-- ==== Sys2Proof/Word.lean ====
section
/-! DEFINITION. The two word types of the core: bytes (registers, operands, memory cells; spec/00_scope.md R7, R9) and
16-bit addresses (the program counter; R7). Both are bit vectors, so that `+` and `-` wrap as R9 says. -/

namespace Sys2Proof

/-- An 8-bit value: A, X, Y, SP, IR, an opcode, an operand or a memory byte (`REG_WIDTH`, `SP_WIDTH`; R7). -/
abbrev Byte := BitVec 8

/-- A 16-bit address, the width of PC (`PC_WIDTH`; R7). -/
abbrev Addr := BitVec 16

end Sys2Proof
end

