-- ==== Sys2Proof/Syntax.lean ====
section
/-! DEFINITION. The instructions of the core: one constructor per row of spec/opcode_table.json (spec/30_encoding.md
R77, and the default row UNASSIGNED, R79). -/

namespace Sys2Proof

/-- One instruction. An operand is the byte the instruction carries: `imm8` for the loads (R72, R75), `disp8` for the
branches (R73, R76), and for an unassigned opcode the opcode byte itself (R112: any of 233 values).
DESIGN CHOICE (log entry 2): an unassigned byte is an instruction of its own, as in the opcode table, which executes as
NOOP does, where R81 maps it straight to NOOP. -/
inductive Instr where
  | halt
  | noop
  | clc
  | sec
  | lda (imm8 : Byte)
  | ldx (imm8 : Byte)
  | ldy (imm8 : Byte)
  | tax
  | tay
  | tya
  | txa
  | txs
  | tys
  | tsx
  | tsy
  | iny
  | inx
  | dey
  | dex
  | beq (disp8 : Byte)
  | bne (disp8 : Byte)
  | bcs (disp8 : Byte)
  | bcc (disp8 : Byte)
  | unassigned (opcode : Byte)
  deriving DecidableEq, Repr

end Sys2Proof
end

