-- ==== Sys2Proof/Decode.lean ====
section
/-! DEFINITION. The decoder and the encoder (spec/30_encoding.md). The opcode byte is decoded as a whole (R78) and fixes
the length (R74); decoding is total on opcodes (R81). A list of bytes is refused, by name, only where it ends before the
instruction does. -/

namespace Sys2Proof

/-- Why a list of bytes holds no whole instruction (log entry 4). A fetch never meets either case: it always has both
bytes, since every address exists (spec/20_memory.md R51). -/
inductive DecodeError where
  /-- The list is empty. -/
  | missingOpcode
  /-- The list is one byte, the opcode of a 2-byte instruction. -/
  | missingOperand (opcode : Byte)
  deriving DecidableEq, Repr

/-- The 23 assigned opcode bytes, as the set of R112 lists them. -/
def assignedOpcodes : List Byte :=
  [0x00#8, 0x18#8, 0x38#8, 0x88#8, 0x8A#8, 0x90#8, 0x91#8, 0x92#8, 0x98#8, 0x9A#8, 0xA0#8, 0xA2#8]
    ++ [0xA8#8, 0xA9#8, 0xAA#8, 0xB0#8, 0xBA#8, 0xC8#8, 0xCA#8, 0xD0#8, 0xE8#8, 0xF0#8, 0xFF#8]

/-- Whether a byte is in the per-opcode table (R77, R112). -/
def isAssigned (op : Byte) : Bool := assignedOpcodes.contains op

/-- The seven opcodes that take an operand byte (R74). -/
def twoByteOpcodes : List Byte := [0xA9#8, 0xA2#8, 0xA0#8, 0xF0#8, 0xD0#8, 0xB0#8, 0x90#8]

/-- The length of an instruction in bytes, from its opcode byte alone (R74). -/
def opcodeLength (op : Byte) : Nat := if twoByteOpcodes.contains op then 2 else 1

/-- The instruction an opcode byte selects, given the byte that follows it: the per-opcode table of R77 row by row, and
one default arm for the rest (R79, R81). Where the instruction is one byte long the following byte has no part in it. -/
def instrOf (op opnd : Byte) : Instr :=
  match op with
  | 0x00#8 => .halt
  | 0xFF#8 => .noop
  | 0x18#8 => .clc
  | 0x38#8 => .sec
  | 0xA9#8 => .lda opnd
  | 0xA2#8 => .ldx opnd
  | 0xA0#8 => .ldy opnd
  | 0xAA#8 => .tax
  | 0xA8#8 => .tay
  | 0x98#8 => .tya
  | 0x8A#8 => .txa
  | 0x9A#8 => .txs
  | 0x91#8 => .tys
  | 0xBA#8 => .tsx
  | 0x92#8 => .tsy
  | 0xC8#8 => .iny
  | 0xE8#8 => .inx
  | 0x88#8 => .dey
  | 0xCA#8 => .dex
  | 0xF0#8 => .beq opnd
  | 0xD0#8 => .bne opnd
  | 0xB0#8 => .bcs opnd
  | 0x90#8 => .bcc opnd
  | _ => .unassigned op

/-- Decode the instruction at the head of a list of bytes, lowest address first (R53, R70), and give the bytes after it. -/
def decode (bytes : List Byte) : Except DecodeError (Instr × List Byte) :=
  match bytes with
  | [] => .error .missingOpcode
  | op :: rest =>
    if opcodeLength op = 2 then
      match rest with
      | [] => .error (.missingOperand op)
      | opnd :: rest' => .ok (instrOf op opnd, rest')
    else .ok (instrOf op 0x00#8, rest)

/-- The bytes of an instruction, lowest address first: formats INH, IMM and REL of R71, R72, R73 with the opcode of each
instruction's own rule (R110 to R184). -/
def encode (i : Instr) : List Byte :=
  match i with
  | .halt => [0x00#8]
  | .noop => [0xFF#8]
  | .clc => [0x18#8]
  | .sec => [0x38#8]
  | .lda imm8 => [0xA9#8, imm8]
  | .ldx imm8 => [0xA2#8, imm8]
  | .ldy imm8 => [0xA0#8, imm8]
  | .tax => [0xAA#8]
  | .tay => [0xA8#8]
  | .tya => [0x98#8]
  | .txa => [0x8A#8]
  | .txs => [0x9A#8]
  | .tys => [0x91#8]
  | .tsx => [0xBA#8]
  | .tsy => [0x92#8]
  | .iny => [0xC8#8]
  | .inx => [0xE8#8]
  | .dey => [0x88#8]
  | .dex => [0xCA#8]
  | .beq disp8 => [0xF0#8, disp8]
  | .bne disp8 => [0xD0#8, disp8]
  | .bcs disp8 => [0xB0#8, disp8]
  | .bcc disp8 => [0x90#8, disp8]
  | .unassigned opcode => [opcode]

/-- The bytes in memory of an instruction given as a number, as spec/opcode_table.json numbers the bits: bits 7 to 0 are
the opcode byte, bits 15 to 8 the byte at the next address. Bits from `nbits` on are 0, up to the longest instruction,
2 bytes (R70). -/
def tableBytes (nbits w : Nat) : List Byte :=
  let v := w % 2 ^ nbits
  [BitVec.ofNat 8 v, BitVec.ofNat 8 (v / 256)]

/-- The instruction the decoder reads from an instruction whose bits are `w` (log entry 10 for the UNASSIGNED row). -/
def decodeTableWord (nbits w : Nat) : Option Instr :=
  match decode (tableBytes nbits w) with
  | .ok (i, _) => some i
  | .error _ => none

end Sys2Proof
end

