-- ==== Sys2Proof/Config.lean ====
section
/-! DEFINITION. The implementation parameters of spec/00_scope.md R7, at the value this hardware takes. R7 leaves no
other parameter to the implementation, and the spec leaves no value a step computes open, so there is no free value. -/

namespace Sys2Proof.Config

/-- `MEM_SIZE`: 65536 bytes, addresses 0x0000 to 0xFFFF (R7). -/
def memSize : Nat := 65536

/-- `STACK_SIZE`: 256 bytes, indices 0x00 to 0xFF (R7, R33). -/
def stackSize : Nat := 256

/-- `SP_RESET`: the stack pointer after reset, its maximum (R7, R39). -/
def spReset : Byte := 0xFF#8

/-- `FILL_BYTE`: the byte memory is filled with before the image is loaded, the opcode of NOOP (R7, R35; decision D3). -/
def fillByte : Byte := 0xFF#8

/-- The byte every entry of the stack array holds from creation on (R33, R38; decision D8). -/
def stackByte : Byte := 0x00#8

/-- `LOAD_BASE`: where `load_program` puts the first byte of the image (R7, R36). -/
def loadBase : Nat := 0

end Sys2Proof.Config
end

