-- ==== Sys2Proof/Machine/State.lean ====
section
/-! DEFINITION. The architectural state of the core, exactly what spec/10_state.md R20 lists, the two ways a step could
stop, and the state a run starts from. -/

namespace Sys2Proof.Machine

/-- A byte array in one canonical form: cells of (index, byte), indices strictly rising, no cell equal to what an unlisted
index reads as. `Cells.wf` (Machine/Ops.lean) is that form. -/
abbrev Cells := List Host.Cell

/-- The architectural state (R20). `mem` lists the bytes of Mem that differ from the fill byte 0xFF, `stack` those of
Stack that differ from 0x00 (R235; log entry 1). -/
structure State where
  /-- Register A (R21). -/
  a : Byte
  /-- Register X (R21). -/
  x : Byte
  /-- Register Y (R21). -/
  y : Byte
  /-- The program counter (R24). -/
  pc : Addr
  /-- The stack pointer (R26). -/
  sp : Byte
  /-- The instruction register (R27). -/
  ir : Byte
  /-- Flag Zero (R29). -/
  zero : Bool
  /-- Flag Carry (R30). -/
  carry : Bool
  /-- Flag Halt, the run-control latch (R31). -/
  halt : Bool
  /-- The 256-entry stack array, separate from memory (R33). -/
  stack : Cells
  /-- The 64 KiB memory array (R34). -/
  mem : Cells
  deriving DecidableEq, Repr

/-- The errors of spec/60_exceptions.md R201 that a step could raise. The model raises none: the core has no exception
(R200), and a step always answers a next state. -/
inductive Fault where
  /-- `OutOfBoundsAddress`. Raised by nobody: R201 keeps the name for a non-wrapping address policy, and the policy is
  wrap (decision D1). Safe: nothing stops here (log entry 9). -/
  | outOfBoundsAddress
  deriving DecidableEq, Repr

/-- Why the model would give an instruction no meaning. -/
inductive Refusal where
  /-- An instruction whose arm of `exec` has no meaning yet. Raised by nobody: every arm has one. Safe. -/
  | notModelled (mnemonic : String)
  deriving DecidableEq, Repr

/-- The launch state of spec/70_reset_and_hazards.md R235 for the empty image: what the boot order of R234 (creation,
`reset()`, `fill_memory(0xFF)`, `load_program` of nothing) leaves. Registers and flags are the values of R39; IR and the
stack hold their creation values (R38, R231); every byte of memory is the fill byte. DEDUCED (log entry 1): the spec says
the engine is not stepped before this point of the boot order. -/
def State.reset : State where
  a := 0x00#8
  x := 0x00#8
  y := 0x00#8
  pc := 0x0000#16
  sp := Config.spReset
  ir := 0x00#8
  zero := true
  carry := false
  halt := false
  stack := []
  mem := []

end Sys2Proof.Machine
end

