-- ==== Sys2Proof/Machine/Ops.lean ====
section
/-! DEFINITION. The named operations over memory and registers, fetching an instruction, and the PC advance. The core has
no trap mechanism (spec/60_exceptions.md R200, R204, R205), so there is no operation that takes an exception and none that
returns from one. -/

namespace Sys2Proof.Machine

/-- The byte at index `k`; an unlisted index reads as `dflt`. -/
def Cells.read (dflt : Byte) : Cells → Nat → Byte
  | [], _ => dflt
  | (i, v) :: rest, k => if i = k then v else Cells.read dflt rest k

/-- Put byte `v` at index `k`, keeping the canonical form: writing `dflt` removes the cell. -/
def Cells.write (dflt : Byte) : Cells → Nat → Byte → Cells
  | [], k, v => if v = dflt then [] else [(k, v)]
  | (i, u) :: rest, k, v =>
    if k < i then (if v = dflt then (i, u) :: rest else (k, v) :: (i, u) :: rest)
    else if k = i then (if v = dflt then rest else (k, v) :: rest)
    else (i, u) :: Cells.write dflt rest k v

/-- The array of `size` bytes that all hold `b`. -/
def Cells.filled (dflt : Byte) (size : Nat) (b : Byte) : Cells :=
  if b = dflt then [] else (List.range size).map fun k => (k, b)

/-- The bytes of `bytes` written at index `k` and on, in ascending order. -/
def Cells.writeAll (dflt : Byte) : Cells → Nat → List Byte → Cells
  | m, _, [] => m
  | m, k, b :: rest => Cells.writeAll dflt (Cells.write dflt m k b) (k + 1) rest

/-- The canonical form from index `lo` on: indices strictly rising and below `size`, no cell equal to `dflt`. -/
def Cells.wfFrom (dflt : Byte) (size : Nat) : Nat → Cells → Bool
  | _, [] => true
  | lo, (i, v) :: rest => decide (lo ≤ i) && decide (i < size) && decide (v ≠ dflt) && Cells.wfFrom dflt size (i + 1) rest

/-- The canonical form of an array of `size` bytes. -/
def Cells.wf (dflt : Byte) (size : Nat) (m : Cells) : Bool := Cells.wfFrom dflt size 0 m

/-- The canonical form of Mem: 65536 bytes, an unlisted one is the fill byte. -/
def Memory.wf (m : Cells) : Bool := Cells.wf Config.fillByte Config.memSize m

/-- The canonical form of Stack: 256 bytes, an unlisted one is 0x00. -/
def Stack.wf (m : Cells) : Bool := Cells.wf Config.stackByte Config.stackSize m

/-- `MemRead(addr, 1)`, for an address the engine computes (R50, R51); an `Addr` is already taken modulo 2^16. -/
def State.memRead (s : State) (addr : Addr) : Byte := Cells.read Config.fillByte s.mem addr.toNat

/-- The byte of the stack array at an index (R10, R33). No instruction calls it. -/
def State.stackRead (s : State) (index : Byte) : Byte := Cells.read Config.stackByte s.stack index.toNat

/-- `MemWrite(addr, 1, v)` (R10), for what lies outside a step only: no instruction writes memory (R50). -/
def State.memWrite (s : State) (addr : Addr) (v : Byte) : State :=
  { s with mem := Cells.write Config.fillByte s.mem addr.toNat v }

/-- The four 8-bit registers an instruction names as operands (R21, R26). -/
inductive Reg where
  | a
  | x
  | y
  | sp
  deriving DecidableEq, Repr

/-- Read a register. None is hard-wired or banked (R21). -/
def State.reg (s : State) (r : Reg) : Byte :=
  match r with
  | .a => s.a
  | .x => s.x
  | .y => s.y
  | .sp => s.sp

/-- Write a register; every value is legal (R21, R32). -/
def State.setReg (s : State) (r : Reg) (v : Byte) : State :=
  match r with
  | .a => { s with a := v }
  | .x => { s with x := v }
  | .y => { s with y := v }
  | .sp => { s with sp := v }

/-- Write PC. -/
def State.setPc (s : State) (v : Addr) : State := { s with pc := v }

/-- Write flag Zero. -/
def State.setZero (s : State) (b : Bool) : State := { s with zero := b }

/-- Write flag Carry. -/
def State.setCarry (s : State) (b : Bool) : State := { s with carry := b }

/-- Write flag Halt. -/
def State.setHalt (s : State) (b : Bool) : State := { s with halt := b }

/-- Write IR. -/
def State.setIr (s : State) (v : Byte) : State := { s with ir := v }

/-- The sequential PC advance by the length of the instruction, modulo 2^16 (R25, R95). -/
def State.advance (s : State) (length : Addr) : State := s.setPc (s.pc + length)

/-- The opcode byte of the instruction at PC (R92). -/
def State.fetchOpcode (s : State) : Byte := s.memRead s.pc

/-- The byte after the opcode, at `(PC + 1) mod 2^16` (R93). -/
def State.fetchOperand (s : State) : Byte := s.memRead (s.pc + 1#16)

/-- The two bytes a fetch may read, lowest address first. -/
def State.fetchBytes (s : State) : List Byte := [s.fetchOpcode, s.fetchOperand]

/-- Fetch and decode (R90, R92, R93): the operand is read for a 2-byte instruction only. For a branch it is read whether or
not the branch is taken, which R93 leaves to the model (log entry 5). -/
def State.fetchInstr (s : State) : Instr :=
  if opcodeLength s.fetchOpcode = 2 then instrOf s.fetchOpcode s.fetchOperand
  else instrOf s.fetchOpcode 0x00#8

/-- The state in which the fetched instruction executes: IR holds the opcode byte (R92), PC is still its address (R24). -/
def State.latchOpcode (s : State) : State := s.setIr s.fetchOpcode

/-- `bytes` stored at PC and the addresses after it, and Halt false, which a fetch needs (R91; log entry 11). -/
def State.placeAtPc (s : State) (bytes : List Byte) : State :=
  (placeFrom s s.pc bytes).setHalt false
where
  placeFrom (s : State) (addr : Addr) : List Byte → State
    | [] => s
    | b :: rest => placeFrom (s.memWrite addr b) (addr + 1#16) rest

end Sys2Proof.Machine
end

