-- ==== Sys2Proof/Machine/Operands.lean ====
section
/-! DEFINITION. The operand forms: an immediate byte used directly (spec/30_encoding.md R75) and a signed displacement
(R76), with the branch target it gives (spec/45_branches.md R180). -/

namespace Sys2Proof.Machine

/-- `sext_16(v)` of spec/00_scope.md R9: `v` if bit 7 is 0, and `v + 0xFF00` if it is 1. PRESUMED: the spec
marks the two's-complement reading as general knowledge (93_implementation_defined.md G2, G3; log entry 12). -/
def sext16 (v : Byte) : Addr :=
  if v.getLsbD 7 then v.setWidth 16 + 0xFF00#16 else v.setWidth 16

/-- The branch target: the address after the 2-byte branch plus the displacement, modulo 2^16 (R180, R186). -/
def branchTarget (pc0 : Addr) (disp8 : Byte) : Addr := pc0 + 2#16 + sext16 disp8

/-- The PC after a branch (R95, R180): the target if the condition holds, else the next instruction. -/
def branchPc (taken : Bool) (pc0 : Addr) (disp8 : Byte) : Addr :=
  if taken then branchTarget pc0 disp8 else pc0 + 2#16

end Sys2Proof.Machine
end

