-- ==== Sys2Proof/Machine/Branches.lean ====
section
/-! DEFINITION. The conditional branches BEQ, BNE, BCS and BCC (spec/45_branches.md). -/

namespace Sys2Proof.Machine

/-- Branch if the condition holds (R180). The condition is the flag's value, and no flag is written (R185). -/
def branchIf (taken : Bool) (disp8 : Byte) (s : State) : Host.Outcome State Fault Refusal :=
  .next (s.setPc (branchPc taken s.pc disp8))

/-- BEQ (R181): taken if Zero is true. -/
def execBeq (disp8 : Byte) (s : State) : Host.Outcome State Fault Refusal := branchIf s.zero disp8 s

/-- BNE (R182): taken if Zero is false. -/
def execBne (disp8 : Byte) (s : State) : Host.Outcome State Fault Refusal := branchIf (!s.zero) disp8 s

/-- BCS (R183): taken if Carry is true. -/
def execBcs (disp8 : Byte) (s : State) : Host.Outcome State Fault Refusal := branchIf s.carry disp8 s

/-- BCC (R184): taken if Carry is false. -/
def execBcc (disp8 : Byte) (s : State) : Host.Outcome State Fault Refusal := branchIf (!s.carry) disp8 s

end Sys2Proof.Machine
end

