-- ==== Sys2Proof/Machine/ControlFlag.lean ====
section
/-! DEFINITION. HALT, NOOP, the unassigned opcodes, CLC and SEC (spec/41_control_flag.md). -/

namespace Sys2Proof.Machine

/-- `PC <- pc0 + 1` and nothing else: NOOP and the unassigned bytes (R111, R112). -/
def noEffect (s : State) : Host.Outcome State Fault Refusal := .next (s.advance 1#16)

/-- HALT (R110): Halt becomes true, PC stays at the HALT byte. -/
def execHalt (s : State) : Host.Outcome State Fault Refusal := .next (s.setHalt true)

/-- NOOP (R111). -/
def execNoop (s : State) : Host.Outcome State Fault Refusal := noEffect s

/-- An unassigned opcode (R112): identical to NOOP, whatever the byte. -/
def execUnassigned (_opcode : Byte) (s : State) : Host.Outcome State Fault Refusal := noEffect s

/-- CLC (R113). -/
def execClc (s : State) : Host.Outcome State Fault Refusal := .next ((s.setCarry false).advance 1#16)

/-- SEC (R114). -/
def execSec (s : State) : Host.Outcome State Fault Refusal := .next ((s.setCarry true).advance 1#16)

end Sys2Proof.Machine
end

