-- ==== Sys2Proof/Machine/Flags.lean ====
section
/-! DEFINITION. Every flag computation of the core: Zero from a loaded value (spec/42_loads.md R133) and Carry from an
increment that wraps (spec/44_incdec.md R160, R161). -/

namespace Sys2Proof.Machine

/-- `bool(result = 0)`, the value a load writes to Zero (R133). -/
def zeroOf (result : Byte) : Bool := result == 0x00#8

/-- The Zero update of the loads (R133): Zero from the result, Carry left alone. -/
def State.updateZero (s : State) (result : Byte) : State := s.setZero (zeroOf result)

/-- Whether incrementing a register wraps from 0xFF to 0x00 (R160, R161). -/
def incWraps (old : Byte) : Bool := old == 0xFF#8

/-- The Carry update of the increments: true on a wrap, else kept; never cleared (R30, R160, R161). -/
def State.carryOnWrap (s : State) (old : Byte) : State := if incWraps old then s.setCarry true else s

end Sys2Proof.Machine
end

