-- ==== Sys2Proof/Machine/IncDec.lean ====
section
/-! DEFINITION. Increment and decrement: INY, INX, DEY, DEX (spec/44_incdec.md). -/

namespace Sys2Proof.Machine

/-- The decremented value: one less, but 0x00 stays 0x00 (R162, R163, R164). -/
def decSaturating (v : Byte) : Byte := if v = 0x00#8 then 0x00#8 else v - 1#8

/-- Increment a register modulo 256; Carry becomes true if it wraps, and Zero is not written (R160, R161). -/
def increment (r : Reg) (s : State) : Host.Outcome State Fault Refusal :=
  .next (((s.setReg r (s.reg r + 1#8)).carryOnWrap (s.reg r)).advance 1#16)

/-- Decrement a register, saturating at zero; no flag is written (R162, R163). -/
def decrement (r : Reg) (s : State) : Host.Outcome State Fault Refusal :=
  .next ((s.setReg r (decSaturating (s.reg r))).advance 1#16)

/-- INY (R160). -/
def execIny (s : State) : Host.Outcome State Fault Refusal := increment .y s

/-- INX (R161). -/
def execInx (s : State) : Host.Outcome State Fault Refusal := increment .x s

/-- DEY (R162). -/
def execDey (s : State) : Host.Outcome State Fault Refusal := decrement .y s

/-- DEX (R163). -/
def execDex (s : State) : Host.Outcome State Fault Refusal := decrement .x s

end Sys2Proof.Machine
end

