-- ==== Sys2Proof/Machine/Loads.lean ====
section
/-! DEFINITION. The immediate loads LDA, LDX and LDY (spec/42_loads.md). -/

namespace Sys2Proof.Machine

/-- Load a register with an immediate byte and set Zero from it (R130 to R133, R75). -/
def loadImmediate (dst : Reg) (imm8 : Byte) (s : State) : Host.Outcome State Fault Refusal :=
  .next (((s.setReg dst imm8).updateZero imm8).advance 2#16)

/-- LDA (R130). -/
def execLda (imm8 : Byte) (s : State) : Host.Outcome State Fault Refusal := loadImmediate .a imm8 s

/-- LDX (R131). -/
def execLdx (imm8 : Byte) (s : State) : Host.Outcome State Fault Refusal := loadImmediate .x imm8 s

/-- LDY (R132). -/
def execLdy (imm8 : Byte) (s : State) : Host.Outcome State Fault Refusal := loadImmediate .y imm8 s

end Sys2Proof.Machine
end

