-- ==== Sys2Proof/Machine/Transfers.lean ====
section
/-! DEFINITION. The eight register transfers (spec/43_transfers.md). -/

namespace Sys2Proof.Machine

/-- Copy one register to another; no flag is written (R148). -/
def transfer (src dst : Reg) (s : State) : Host.Outcome State Fault Refusal :=
  .next ((s.setReg dst (s.reg src)).advance 1#16)

/-- TAX: A to X (R140). -/
def execTax (s : State) : Host.Outcome State Fault Refusal := transfer .a .x s

/-- TAY: A to Y (R141). -/
def execTay (s : State) : Host.Outcome State Fault Refusal := transfer .a .y s

/-- TYA: Y to A (R142). -/
def execTya (s : State) : Host.Outcome State Fault Refusal := transfer .y .a s

/-- TXA: X to A (R143). -/
def execTxa (s : State) : Host.Outcome State Fault Refusal := transfer .x .a s

/-- TXS: X to SP (R144). -/
def execTxs (s : State) : Host.Outcome State Fault Refusal := transfer .x .sp s

/-- TYS: Y to SP (R145). -/
def execTys (s : State) : Host.Outcome State Fault Refusal := transfer .y .sp s

/-- TSX: SP to X (R146). -/
def execTsx (s : State) : Host.Outcome State Fault Refusal := transfer .sp .x s

/-- TSY: SP to Y (R147). -/
def execTsy (s : State) : Host.Outcome State Fault Refusal := transfer .sp .y s

end Sys2Proof.Machine
end

