-- ==== Sys2Proof/Machine/Dispatch.lean ====
section
/-! DEFINITION. The dispatch of an instruction to its meaning, one arm per constructor of Instr (spec/40_engine.md R94). -/

namespace Sys2Proof.Machine

/-- Execute an instruction in a state whose PC is the address of its opcode byte (R24, R90). -/
def exec (i : Instr) (s : State) : Host.Outcome State Fault Refusal :=
  match i with
  | .halt => Sys2Proof.Machine.execHalt s
  | .noop => Sys2Proof.Machine.execNoop s
  | .clc => Sys2Proof.Machine.execClc s
  | .sec => Sys2Proof.Machine.execSec s
  | .lda imm8 => Sys2Proof.Machine.execLda imm8 s
  | .ldx imm8 => Sys2Proof.Machine.execLdx imm8 s
  | .ldy imm8 => Sys2Proof.Machine.execLdy imm8 s
  | .tax => Sys2Proof.Machine.execTax s
  | .tay => Sys2Proof.Machine.execTay s
  | .tya => Sys2Proof.Machine.execTya s
  | .txa => Sys2Proof.Machine.execTxa s
  | .txs => Sys2Proof.Machine.execTxs s
  | .tys => Sys2Proof.Machine.execTys s
  | .tsx => Sys2Proof.Machine.execTsx s
  | .tsy => Sys2Proof.Machine.execTsy s
  | .iny => Sys2Proof.Machine.execIny s
  | .inx => Sys2Proof.Machine.execInx s
  | .dey => Sys2Proof.Machine.execDey s
  | .dex => Sys2Proof.Machine.execDex s
  | .beq disp8 => Sys2Proof.Machine.execBeq disp8 s
  | .bne disp8 => Sys2Proof.Machine.execBne disp8 s
  | .bcs disp8 => Sys2Proof.Machine.execBcs disp8 s
  | .bcc disp8 => Sys2Proof.Machine.execBcc disp8 s
  | .unassigned opcode => Sys2Proof.Machine.execUnassigned opcode s

end Sys2Proof.Machine
end

