-- ==== Sys2Proof/Machine/Step.lean ====
section
/-! DEFINITION. The core's one operation `step` (spec/40_engine.md R90), and the host's way to place an instruction where
the next step fetches it. -/

namespace Sys2Proof.Machine

/-- `step()` (R90). On a halted machine it fetches and writes nothing (R91); otherwise it fetches the instruction at PC,
writes IR and executes it. The Boolean `step` returns is Halt of the next state (R96; log entry 3). -/
def step (s : State) : Host.Outcome State Fault Refusal :=
  if s.halt then .next s else exec s.fetchInstr s.latchOpcode

/-- `s` with the instruction whose bits are `w` stored at PC and Halt false, so that the next step runs exactly it
(log entries 1 and 11). -/
def State.withFetchWord (s : State) (nbits w : Nat) : State := s.placeAtPc (tableBytes nbits w)

end Sys2Proof.Machine
end

