-- ==== Sys2Proof/Machine/HostOps.lean ====
section
/-! DEFINITION. The host operations of the block interface besides `step` (spec/10_state.md R40): creation, `reset`,
`fill_memory`, `load_program`, `read_byte` and the trace outputs. -/

namespace Sys2Proof.Machine

/-- The creation state (R38): every register and every byte 0x00, every flag false. -/
def State.created : State where
  a := 0x00#8
  x := 0x00#8
  y := 0x00#8
  pc := 0x0000#16
  sp := 0x00#8
  ir := 0x00#8
  zero := false
  carry := false
  halt := false
  stack := Cells.filled Config.stackByte Config.stackSize 0x00#8
  mem := Cells.filled Config.fillByte Config.memSize 0x00#8

/-- `reset()` (spec/70_reset_and_hazards.md R230): writes PC, SP, A, X, Y and the flags; IR, the stack and memory keep
their values (R231). -/
def State.hostReset (s : State) : State :=
  { s with pc := 0x0000#16, sp := Config.spReset, a := 0x00#8, x := 0x00#8, y := 0x00#8,
           zero := true, carry := false, halt := false }

/-- `fill_memory(b)` (R35): every byte of memory becomes `b`. -/
def State.fillMemory (b : Byte) (s : State) : State :=
  { s with mem := Cells.filled Config.fillByte Config.memSize b }

/-- What `load_program` answers (R36, R201). -/
inductive LoadResult where
  /-- The image is in memory. -/
  | loaded (s : State)
  /-- `ProgramTooLarge`: the image has more than 65536 bytes, and nothing was written. -/
  | programTooLarge
  deriving DecidableEq, Repr

/-- `load_program(bytes)` (R36): copies the image to address 0 and on, or fails and writes nothing. -/
def State.loadProgram (bytes : List Byte) (s : State) : LoadResult :=
  if bytes.length > Config.memSize then .programTooLarge
  else .loaded { s with mem := Cells.writeAll Config.fillByte s.mem Config.loadBase bytes }

/-- `read_byte(address)` (R37, R51): the address is any integer, taken modulo 65536. -/
def State.readByte (s : State) (address : Int) : Byte :=
  Cells.read Config.fillByte s.mem (address % (Config.memSize : Int)).toNat

/-- The trace outputs (R42). -/
structure Trace where
  halt : Bool
  ir : Byte
  pc : Addr
  deriving DecidableEq, Repr

/-- The trace read: Halt, IR and PC as they are, nothing written (R42). -/
def State.trace (s : State) : Trace := { halt := s.halt, ir := s.ir, pc := s.pc }

/-- The boot order of R234 up to the first step: create, `reset()`, `fill_memory(0xFF)`, `load_program(image)`. -/
def boot (image : List Byte) : LoadResult :=
  ((State.created.hostReset).fillMemory Config.fillByte).loadProgram image

end Sys2Proof.Machine
end

