-- ==== Sys2Proof/Machine/Driver.lean ====
section
/-! DEFINITION. The driver's side of the interface: the boot order of spec/70_reset_and_hazards.md R234 and the table of
what the host may and must not do (spec/60_exceptions.md R213; spec/10_state.md R41), as a machine over a session. What the
table does not list has no move: it is refused, and the session stays as it was. -/

namespace Sys2Proof.Machine

/-- How far a session has come in the boot order (R234). Steps 2 and 3, reset and fill, may be swapped. -/
inductive Stage where
  /-- The state is created, neither reset nor filled. -/
  | created
  /-- Reset, not yet filled. -/
  | resetOnly
  /-- Filled, not yet reset. -/
  | filledOnly
  /-- Reset and filled: an image may be loaded. -/
  | ready
  /-- An image is loaded and no step was taken since the last reset. -/
  | loaded
  /-- At least one step was taken since the last reset, whether or not the run has ended at HALT (log entry 7). -/
  | running
  deriving DecidableEq, Repr

/-- The core's state with the driver's place in the boot order, which is no state of the core (R20). -/
structure Session where
  stage : Stage
  state : State
  deriving DecidableEq, Repr

/-- A session right after creation (R38). -/
def Session.start : Session := { stage := .created, state := State.created }

/-- The interactions the host has with the core (R213). -/
inductive HostOp where
  | reset
  | fillMemory (b : Byte)
  | loadProgram (image : List Byte)
  | step
  | traceRead
  deriving DecidableEq, Repr

/-- What the core gives back (R213). -/
inductive Reply where
  | done
  | programTooLarge
  /-- The Boolean `step` returns, Halt at the end of the step (R96). -/
  | halted (b : Bool)
  | trace (t : Trace)
  deriving DecidableEq, Repr

/-- Why a host operation has no move. Each is the driver's breach of R213 or R35, raised by `Session.apply` alone, and
safe: the model gives the breach no effect (log entries 6 and 7). -/
inductive HostRefusal where
  /-- The fill byte is an assigned opcode other than 0xFF (R35). -/
  | fillByteNotNoOp
  /-- `fill_memory` after `load_program` or between steps (R213). -/
  | fillAfterLoad
  /-- `load_program` before memory is filled and the core reset (R234). -/
  | loadBeforeInitialised
  /-- `load_program` while a program is running (R213, R41), or after its end at HALT without a reset (log entry 7). -/
  | loadDuringRun
  /-- `step` before the boot order is done (R38, R234). -/
  | stepBeforeBoot
  /-- A trace read before any step of the run (R42, R213). -/
  | traceBeforeStep
  /-- The step answered no next state. Raised by nobody: a step always does (R90). -/
  | coreStopped
  deriving DecidableEq, Repr

/-- What a host operation leads to. -/
inductive HostOutcome where
  | moved (next : Session) (reply : Reply)
  | refused (why : HostRefusal)
  deriving DecidableEq, Repr

/-- A byte a host may fill memory with: it decodes as a no-op (R35, decision D3). -/
def isNoOpByte (b : Byte) : Bool := b == 0xFF#8 || !isAssigned b

/-- Where `reset()` leads: it is a step of the boot, and after a load it begins a run anew over the memory as it is. -/
def Stage.afterReset (g : Stage) : Stage :=
  match g with
  | .created => .resetOnly
  | .resetOnly => .resetOnly
  | .filledOnly => .ready
  | .ready => .ready
  | .loaded => .loaded
  | .running => .loaded

/-- Where `fill_memory` leads, if the host may call it (R213: before loading). DESIGN CHOICE (log entry 7): more than once
before the load, and after a load not even when the core was reset. -/
def Stage.afterFill (g : Stage) : Option Stage :=
  match g with
  | .created => some .filledOnly
  | .resetOnly => some .ready
  | .filledOnly => some .filledOnly
  | .ready => some .ready
  | .loaded => none
  | .running => none

/-- Whether `load_program` may be called, or why not (R213, R234). DESIGN CHOICE (log entry 7): it needs the reset as well as
the fill before it, and it is refused from the first step to the next reset, after an end at HALT too, where R213 forbids it
only while a program is running and R98 leaves open what the host does after the end. -/
def Stage.loadRefusal (g : Stage) : Option HostRefusal :=
  match g with
  | .created => some .loadBeforeInitialised
  | .resetOnly => some .loadBeforeInitialised
  | .filledOnly => some .loadBeforeInitialised
  | .ready => none
  | .loaded => none
  | .running => some .loadDuringRun

/-- Whether `step` may be called: a program is loaded (R234). DESIGN CHOICE (log entry 7): after HALT too (R91). -/
def Stage.maySteps (g : Stage) : Bool := g == .loaded || g == .running

/-- `reset()` by the host. -/
def Session.reset (z : Session) : HostOutcome :=
  .moved { stage := z.stage.afterReset, state := z.state.hostReset } .done

/-- `fill_memory(b)` by the host. -/
def Session.fill (b : Byte) (z : Session) : HostOutcome :=
  if isNoOpByte b then
    match z.stage.afterFill with
    | some g => .moved { stage := g, state := z.state.fillMemory b } .done
    | none => .refused .fillAfterLoad
  else .refused .fillByteNotNoOp

/-- `load_program(image)` by the host. A failed load changes nothing of the core's state (R36), and the image that failed
does not run (R234): from `ready` a step stays refused. DESIGN CHOICE (log entry 7): the stage is kept too, so that after a
failed second load, in `loaded`, the earlier image may still be stepped; the spec is silent on that case. -/
def Session.load (image : List Byte) (z : Session) : HostOutcome :=
  match z.stage.loadRefusal with
  | some why => .refused why
  | none =>
    match z.state.loadProgram image with
    | .loaded t => .moved { stage := .loaded, state := t } .done
    | .programTooLarge => .moved z .programTooLarge

/-- `step()` by the host; on a halted core it changes nothing and returns true again (R91). -/
def Session.step (z : Session) : HostOutcome :=
  if z.stage.maySteps then
    match Sys2Proof.Machine.step z.state with
    | .next t => .moved { stage := .running, state := t } (.halted t.halt)
    | .fault _ => .refused .coreStopped
    | .refused _ => .refused .coreStopped
  else .refused .stepBeforeBoot

/-- A trace read by the host, after a step (R42). -/
def Session.traceRead (z : Session) : HostOutcome :=
  if z.stage = .running then .moved z (.trace z.state.trace) else .refused .traceBeforeStep

/-- One host operation on a session (R213). -/
def Session.apply (op : HostOp) (z : Session) : HostOutcome :=
  match op with
  | .reset => z.reset
  | .fillMemory b => z.fill b
  | .loadProgram image => z.load image
  | .step => z.step
  | .traceRead => z.traceRead

end Sys2Proof.Machine
end

