-- ==== Sys2Proof/WellFormed.lean ====
section
/-! DEFINITION. Which instruction terms the hardware has. Every operand byte is allowed (spec/30_encoding.md R72, R73);
the one check is that an unassigned opcode is none of the assigned ones (R112). -/

namespace Sys2Proof

/-- An instruction term that some bytes encode: `unassigned` carries a byte outside the per-opcode table (R79, R112). -/
def Instr.wellFormed (i : Instr) : Bool :=
  match i with
  | .unassigned opcode => !isAssigned opcode
  | _ => true

end Sys2Proof
end

