-- ==== Sys2Proof/Safety.lean ====
section
/-! DEFINITION. What counts as a good state and a good run, in the terms claims use. -/

namespace Sys2Proof.Machine

/-- The core is about to execute the opcode byte `op`: it is not halted, and `op` is at PC. -/
def State.opcodeAtPc (s : State) (op : Byte) : Prop := s.halt = false ∧ s.memRead s.pc = op

/-- The core is about to execute the 2-byte instruction `op v`, whose operand is at `(PC + 1) mod 2^16`
(spec/40_engine.md R93). -/
def State.bytesAtPc (s : State) (op v : Byte) : Prop :=
  s.halt = false ∧ s.memRead s.pc = op ∧ s.memRead (s.pc + 1#16) = v

/-- IR and every byte of the two arrays are the same in two states. -/
def SameStorage (s t : State) : Prop :=
  t.ir = s.ir ∧ (∀ i, t.stackRead i = s.stackRead i) ∧ ∀ addr, t.memRead addr = s.memRead addr

/-- LDA, LDX and LDY. -/
def isLoad (i : Instr) : Bool :=
  match i with
  | .lda _ | .ldx _ | .ldy _ => true
  | _ => false

/-- The instructions that write a register: the tables of spec/10_state.md R22 and R26. -/
def writesReg (r : Reg) (i : Instr) : Bool :=
  match r, i with
  | .a, .lda _ | .a, .tya | .a, .txa => true
  | .x, .ldx _ | .x, .tax | .x, .tsx | .x, .inx | .x, .dex => true
  | .y, .ldy _ | .y, .tay | .y, .tsy | .y, .iny | .y, .dey => true
  | .sp, .txs | .sp, .tys => true
  | _, _ => false

/-- The instructions that read a register: the tables of R22 and R26. -/
def readsReg (r : Reg) (i : Instr) : Bool :=
  match r, i with
  | .a, .tax | .a, .tay => true
  | .x, .txa | .x, .txs | .x, .inx | .x, .dex => true
  | .y, .tya | .y, .tys | .y, .iny | .y, .dey => true
  | .sp, .tsx | .sp, .tsy => true
  | _, _ => false

/-- The core stands at the HALT byte it executed: Halt true, IR 0x00, and 0x00 in memory at PC (spec/40_engine.md R98). -/
def State.atHaltByte (s : State) : Bool := s.halt && s.ir == 0x00#8 && s.fetchOpcode == 0x00#8

/-- The invariant of a step: both arrays are in canonical form, and a halted core stands at the HALT byte it executed. -/
def State.Inv (s : State) : Prop :=
  Memory.wf s.mem = true ∧ Stack.wf s.stack = true ∧ (s.halt = true → s.atHaltByte = true)

/-- `f` on the next state, if there is one. -/
def mapNext (f : State → State) (o : Host.Outcome State Fault Refusal) : Host.Outcome State Fault Refusal :=
  match o with
  | .next s => .next (f s)
  | .fault r => .fault r
  | .refused r => .refused r

/-- The next state, if there is one. -/
def nextState (o : Host.Outcome State Fault Refusal) : Option State :=
  match o with
  | .next s => some s
  | .fault _ => none
  | .refused _ => none

/-- The run from `s` ends after exactly `k` steps in `t`: the `k`-th step is the first one that returns true (R98). -/
def EndsAfter (s : State) (k : Nat) (t : State) : Prop :=
  0 < k ∧ Sys2Proof.core.run k s = .next t ∧ t.halt = true
    ∧ ∀ j, 0 < j → j < k → ∀ u, Sys2Proof.core.run j s = .next u → u.halt = false

/-- The sessions a driver can bring about from creation by moves the host table allows (spec/60_exceptions.md R213). -/
inductive Reachable : Session → Prop where
  | start : Reachable Session.start
  | move {z z' : Session} {op : HostOp} {r : Reply} (h : Reachable z) (m : z.apply op = .moved z' r) : Reachable z'

/-- A state whose registers and flags are those of the launch state (spec/70_reset_and_hazards.md R230, R235). -/
def State.atLaunch (s : State) : Prop :=
  s.pc = 0x0000#16 ∧ s.sp = 0xFF#8 ∧ s.a = 0x00#8 ∧ s.x = 0x00#8 ∧ s.y = 0x00#8
    ∧ s.zero = true ∧ s.carry = false ∧ s.halt = false

end Sys2Proof.Machine
end

