-- ==== Sys2Proof/Certificates/Slice0/Obligations.lean ====
section
/-! DEFINITION. The statements for the provers, each formalising rules of spec/. Each docstring is the statement in words;
OBLIGATIONS.json lists the rules it cites. -/

open Sys2Proof Sys2Proof.Machine

/-- O1. HALT 0x00, NOOP 0xFF, CLC 0x18, LDX #7 (0xA2 0x07), TXS 0x9A, DEY 0x88 and BCC -3 (0x90 0xFD) decode to the
instructions the opcode map gives, and the bytes after the instruction are left. That the unassigned byte 0x4C
decodes to an instruction of its own, which executes as NOOP, is the model's choice (log entry 2): R81 maps it to
NOOP. (30_encoding.md §3 Opcode map) -/
def Obligations.SpecWordsDecode : Prop :=
  decode [0x00#8] = .ok (.halt, []) ∧ decode [0xFF#8] = .ok (.noop, []) ∧ decode [0x18#8, 0x38#8] = .ok (.clc, [0x38#8])
    ∧ decode [0xA2#8, 0x07#8] = .ok (.ldx 0x07#8, []) ∧ decode [0x9A#8] = .ok (.txs, []) ∧ decode [0x88#8] = .ok (.dey, [])
    ∧ decode [0x90#8, 0xFD#8] = .ok (.bcc 0xFD#8, []) ∧ decode [0x4C#8, 0x12#8] = .ok (.unassigned 0x4C#8, [0x12#8])

/-- O2. For every state with Halt false, if the bytes at PC and PC + 1 mod 2^16 decode to an instruction i, then i is
well-formed and step is exec of i on the same state with IR holding the opcode byte. Nothing else stands around
exec; exec itself writes the next PC. (40_engine.md §1 The step) -/
def Obligations.StepRunsDecodedInstruction : Prop :=
  ∀ (s : State) (i : Instr) (rest : List Byte), s.halt = false →
    decode [s.memRead s.pc, s.memRead (s.pc + 1#16)] = .ok (i, rest) →
      i.wellFormed = true ∧ step s = exec i { s with ir := s.memRead s.pc }

/-- O3. If Halt is true at the start of a step, the next state is the same state (so IR and PC are unchanged too), and
the Boolean the step returns, Halt of the next state, is true. (R91) -/
def Obligations.HaltedStepWritesNothing : Prop :=
  ∀ s : State, s.halt = true → ∃ t, step s = .next t ∧ t = s ∧ t.halt = true

/-- O4. For every state with Halt false, whatever byte is at PC, the step answers a next state whose IR is that byte,
and the instruction executes with IR already written: the step is exec of an instruction on the state with IR
holding the byte. (R92) -/
def Obligations.EveryExecutingStepWritesIr : Prop :=
  ∀ s : State, s.halt = false →
    (∃ i, step s = exec i { s with ir := s.memRead s.pc }) ∧ ∃ t, step s = .next t ∧ t.ir = s.memRead s.pc

/-- O5. For every instruction and state, exec answers a next state; for every state, step answers a next state.
(40_engine.md §1 The step, 60_exceptions.md §1 Exceptions and errors) -/
def Obligations.StepAndExecAlwaysAnswer : Prop :=
  (∀ (i : Instr) (s : State), ∃ t, exec i s = .next t) ∧ ∀ s : State, ∃ t, step s = .next t

/-- O6. The Boolean a step returns is Halt of its next state: it is true after HALT (opcode 0x00) executes and on a
halted machine, and false after every other instruction. The spec marks the rule as its own inference from its other
rules. (40_engine.md R96) -/
def Obligations.StepReturnsHalt : Prop :=
  ∀ s t : State, step s = .next t → (t.halt = true ↔ s.halt = true ∨ s.memRead s.pc = 0x00#8)

/-- O7. For every state with Halt false and its next state: HALT leaves PC; LDA, LDX, LDY add 2; a branch adds 2, and
the sign-extended operand too if its flag condition holds; every other byte, NOOP and the unassigned ones included,
adds 1; all modulo 2^16. (R95) -/
def Obligations.NextPcTable : Prop :=
  ∀ s t : State, s.halt = false → step s = .next t →
    let op := s.memRead s.pc
    let target := s.pc + 2#16 + (s.memRead (s.pc + 1#16)).signExtend 16
    t.pc =
      if op = 0x00#8 then s.pc
      else if op = 0xA9#8 ∨ op = 0xA2#8 ∨ op = 0xA0#8 then s.pc + 2#16
      else if op = 0xF0#8 then (if s.zero = true then target else s.pc + 2#16)
      else if op = 0xD0#8 then (if s.zero = false then target else s.pc + 2#16)
      else if op = 0xB0#8 then (if s.carry = true then target else s.pc + 2#16)
      else if op = 0x90#8 then (if s.carry = false then target else s.pc + 2#16)
      else s.pc + 1#16

/-- O8. HALT is the byte 0x00; exec of HALT answers the state with Halt true and nothing else changed; a step that finds
0x00 at PC leaves IR 0x00 and PC in place, and the next step changes nothing; no instruction clears Halt. (R110) -/
def Obligations.HaltResult : Prop :=
  encode .halt = [0x00#8]
    ∧ (∀ s : State, exec .halt s = .next { s with halt := true })
    ∧ (∀ s : State, s.opcodeAtPc 0x00#8 →
        step s = .next { s with ir := 0x00#8, halt := true }
          ∧ step { s with ir := 0x00#8, halt := true } = .next { s with ir := 0x00#8, halt := true })
    ∧ ∀ (i : Instr) (s t : State), exec i s = .next t → s.halt = true → t.halt = true

/-- O9. NOOP is the byte 0xFF and answers the state with PC plus 1; an unassigned opcode answers what NOOP answers in
every state; a byte outside the table decodes, whatever follows, as a 1-byte instruction that answers what NOOP
answers; a step that finds NOOP or such a byte at PC writes IR and advances PC by 1 modulo 2^16; every byte decodes.
(R111, R112, R79) -/
def Obligations.NoOpResults : Prop :=
  encode .noop = [0xFF#8]
    ∧ (∀ s : State, exec .noop s = .next { s with pc := s.pc + 1#16 })
    ∧ (∀ (op : Byte) (s : State), exec (.unassigned op) s = .next { s with pc := s.pc + 1#16 })
    ∧ (∀ s : State, s.opcodeAtPc 0xFF#8 → step s = .next { s with ir := 0xFF#8, pc := s.pc + 1#16 })
    ∧ (∀ (op : Byte) (rest : List Byte), op ∉ assignedOpcodes →
        ∃ i, decode (op :: rest) = .ok (i, rest) ∧ ∀ s : State, exec i s = exec .noop s)
    ∧ (∀ (op : Byte) (s : State), op ∉ assignedOpcodes → s.opcodeAtPc op →
        step s = .next { s with ir := op, pc := s.pc + 1#16 })
    ∧ (∀ (op opnd : Byte) (rest : List Byte), ∃ r, decode (op :: opnd :: rest) = .ok r)

/-- O10. CLC is 0x18 and SEC 0x38; exec of each answers the state with Carry false, true and PC plus 1; a step that
finds the byte at PC does that and writes IR; an instruction after which a true Carry is false is CLC. (R113, R114) -/
def Obligations.CarryInstructionResults : Prop :=
  encode .clc = [0x18#8] ∧ encode .sec = [0x38#8]
    ∧ (∀ s : State, exec .clc s = .next { s with carry := false, pc := s.pc + 1#16 })
    ∧ (∀ s : State, exec .sec s = .next { s with carry := true, pc := s.pc + 1#16 })
    ∧ (∀ s : State, s.opcodeAtPc 0x18#8 → step s = .next { s with ir := 0x18#8, carry := false, pc := s.pc + 1#16 })
    ∧ (∀ s : State, s.opcodeAtPc 0x38#8 → step s = .next { s with ir := 0x38#8, carry := true, pc := s.pc + 1#16 })
    ∧ ∀ (i : Instr) (s t : State), exec i s = .next t → s.carry = true → t.carry = false → i = .clc

/-- O11. Each load is its opcode (0xA9, 0xA2, 0xA0) and the immediate byte; exec answers the state with the register
holding the byte, Zero telling whether it is 0 and PC plus 2, Carry and Halt unchanged; a step that finds the two
bytes at PC and PC + 1 mod 2^16 does that and writes IR. (R130, R131, R132) -/
def Obligations.LoadResults : Prop :=
  (∀ v, encode (.lda v) = [0xA9#8, v]) ∧ (∀ v, encode (.ldx v) = [0xA2#8, v]) ∧ (∀ v, encode (.ldy v) = [0xA0#8, v])
    ∧ (∀ (s : State) (v : Byte), exec (.lda v) s = .next { s with a := v, zero := v == 0x00#8, pc := s.pc + 2#16 })
    ∧ (∀ (s : State) (v : Byte), exec (.ldx v) s = .next { s with x := v, zero := v == 0x00#8, pc := s.pc + 2#16 })
    ∧ (∀ (s : State) (v : Byte), exec (.ldy v) s = .next { s with y := v, zero := v == 0x00#8, pc := s.pc + 2#16 })
    ∧ (∀ (s : State) (v : Byte), s.bytesAtPc 0xA9#8 v →
        step s = .next { s with ir := 0xA9#8, a := v, zero := v == 0x00#8, pc := s.pc + 2#16 })
    ∧ (∀ (s : State) (v : Byte), s.bytesAtPc 0xA2#8 v →
        step s = .next { s with ir := 0xA2#8, x := v, zero := v == 0x00#8, pc := s.pc + 2#16 })
    ∧ (∀ (s : State) (v : Byte), s.bytesAtPc 0xA0#8 v →
        step s = .next { s with ir := 0xA0#8, y := v, zero := v == 0x00#8, pc := s.pc + 2#16 })

/-- O12. TAX 0xAA, TAY 0xA8, TYA 0x98, TXA 0x8A, TXS 0x9A, TYS 0x91, TSX 0xBA, TSY 0x92: exec answers the state with the
destination holding the source and PC plus 1, everything else (Zero, Carry, Halt, the source) unchanged; a step that
finds the byte at PC does that and writes IR. (R140, R141, R142, R143, R144, R145, R146, R147, R148) -/
def Obligations.TransferResults : Prop :=
  encode .tax = [0xAA#8] ∧ encode .tay = [0xA8#8] ∧ encode .tya = [0x98#8] ∧ encode .txa = [0x8A#8]
    ∧ encode .txs = [0x9A#8] ∧ encode .tys = [0x91#8] ∧ encode .tsx = [0xBA#8] ∧ encode .tsy = [0x92#8]
    ∧ (∀ s : State, exec .tax s = .next { s with x := s.a, pc := s.pc + 1#16 })
    ∧ (∀ s : State, exec .tay s = .next { s with y := s.a, pc := s.pc + 1#16 })
    ∧ (∀ s : State, exec .tya s = .next { s with a := s.y, pc := s.pc + 1#16 })
    ∧ (∀ s : State, exec .txa s = .next { s with a := s.x, pc := s.pc + 1#16 })
    ∧ (∀ s : State, exec .txs s = .next { s with sp := s.x, pc := s.pc + 1#16 })
    ∧ (∀ s : State, exec .tys s = .next { s with sp := s.y, pc := s.pc + 1#16 })
    ∧ (∀ s : State, exec .tsx s = .next { s with x := s.sp, pc := s.pc + 1#16 })
    ∧ (∀ s : State, exec .tsy s = .next { s with y := s.sp, pc := s.pc + 1#16 })
    ∧ (∀ s : State, s.opcodeAtPc 0xAA#8 → step s = .next { s with ir := 0xAA#8, x := s.a, pc := s.pc + 1#16 })
    ∧ (∀ s : State, s.opcodeAtPc 0xA8#8 → step s = .next { s with ir := 0xA8#8, y := s.a, pc := s.pc + 1#16 })
    ∧ (∀ s : State, s.opcodeAtPc 0x98#8 → step s = .next { s with ir := 0x98#8, a := s.y, pc := s.pc + 1#16 })
    ∧ (∀ s : State, s.opcodeAtPc 0x8A#8 → step s = .next { s with ir := 0x8A#8, a := s.x, pc := s.pc + 1#16 })
    ∧ (∀ s : State, s.opcodeAtPc 0x9A#8 → step s = .next { s with ir := 0x9A#8, sp := s.x, pc := s.pc + 1#16 })
    ∧ (∀ s : State, s.opcodeAtPc 0x91#8 → step s = .next { s with ir := 0x91#8, sp := s.y, pc := s.pc + 1#16 })
    ∧ (∀ s : State, s.opcodeAtPc 0xBA#8 → step s = .next { s with ir := 0xBA#8, x := s.sp, pc := s.pc + 1#16 })
    ∧ (∀ s : State, s.opcodeAtPc 0x92#8 → step s = .next { s with ir := 0x92#8, y := s.sp, pc := s.pc + 1#16 })

/-- O13. INY 0xC8, INX 0xE8: from 0xFF the register becomes 0x00 and Carry true; from any other value the register is
one more and Carry is kept; PC plus 1, nothing else changes; a step that finds the byte at PC does that and writes
IR. (R160, R161) -/
def Obligations.IncrementResults : Prop :=
  encode .iny = [0xC8#8] ∧ encode .inx = [0xE8#8]
    ∧ (∀ s : State, exec .iny s = .next (if s.y = 0xFF#8 then { s with y := 0x00#8, carry := true, pc := s.pc + 1#16 }
        else { s with y := s.y + 1#8, pc := s.pc + 1#16 }))
    ∧ (∀ s : State, exec .inx s = .next (if s.x = 0xFF#8 then { s with x := 0x00#8, carry := true, pc := s.pc + 1#16 }
        else { s with x := s.x + 1#8, pc := s.pc + 1#16 }))
    ∧ (∀ s : State, s.opcodeAtPc 0xC8#8 → step s = .next (if s.y = 0xFF#8
        then { s with ir := 0xC8#8, y := 0x00#8, carry := true, pc := s.pc + 1#16 }
        else { s with ir := 0xC8#8, y := s.y + 1#8, pc := s.pc + 1#16 }))
    ∧ (∀ s : State, s.opcodeAtPc 0xE8#8 → step s = .next (if s.x = 0xFF#8
        then { s with ir := 0xE8#8, x := 0x00#8, carry := true, pc := s.pc + 1#16 }
        else { s with ir := 0xE8#8, x := s.x + 1#8, pc := s.pc + 1#16 }))

/-- O14. DEY 0x88, DEX 0xCA: from 0x00 nothing but PC changes; from any other value the register is one less; no flag is
written; PC plus 1; a step that finds the byte at PC does that and writes IR. (R162, R163) -/
def Obligations.DecrementResults : Prop :=
  encode .dey = [0x88#8] ∧ encode .dex = [0xCA#8]
    ∧ (∀ s : State, exec .dey s = .next (if s.y ≠ 0x00#8 then { s with y := s.y - 1#8, pc := s.pc + 1#16 }
        else { s with pc := s.pc + 1#16 }))
    ∧ (∀ s : State, exec .dex s = .next (if s.x ≠ 0x00#8 then { s with x := s.x - 1#8, pc := s.pc + 1#16 }
        else { s with pc := s.pc + 1#16 }))
    ∧ (∀ s : State, s.opcodeAtPc 0x88#8 → step s = .next (if s.y ≠ 0x00#8
        then { s with ir := 0x88#8, y := s.y - 1#8, pc := s.pc + 1#16 }
        else { s with ir := 0x88#8, pc := s.pc + 1#16 }))
    ∧ (∀ s : State, s.opcodeAtPc 0xCA#8 → step s = .next (if s.x ≠ 0x00#8
        then { s with ir := 0xCA#8, x := s.x - 1#8, pc := s.pc + 1#16 }
        else { s with ir := 0xCA#8, pc := s.pc + 1#16 }))

/-- O15. Each branch is its opcode (0xF0, 0xD0, 0xB0, 0x90) and the displacement; exec answers the state with PC = (pc0
+ 2 + sext_16(disp8)) mod 2^16 if Zero is true, Zero is false, Carry is true, Carry is false, else pc0 + 2, and no
flag or register written; a step that finds the two bytes at PC and PC + 1 mod 2^16 does that and writes IR. (R181,
R182, R183, R184) -/
def Obligations.BranchResults : Prop :=
  (∀ d, encode (.beq d) = [0xF0#8, d]) ∧ (∀ d, encode (.bne d) = [0xD0#8, d]) ∧ (∀ d, encode (.bcs d) = [0xB0#8, d]) ∧ (∀ d, encode (.bcc d) = [0x90#8, d])
    ∧ (∀ (s : State) (d : Byte), exec (.beq d) s =
        .next { s with pc := if s.zero = true then s.pc + 2#16 + d.signExtend 16 else s.pc + 2#16 })
    ∧ (∀ (s : State) (d : Byte), exec (.bne d) s =
        .next { s with pc := if s.zero = false then s.pc + 2#16 + d.signExtend 16 else s.pc + 2#16 })
    ∧ (∀ (s : State) (d : Byte), exec (.bcs d) s =
        .next { s with pc := if s.carry = true then s.pc + 2#16 + d.signExtend 16 else s.pc + 2#16 })
    ∧ (∀ (s : State) (d : Byte), exec (.bcc d) s =
        .next { s with pc := if s.carry = false then s.pc + 2#16 + d.signExtend 16 else s.pc + 2#16 })
    ∧ (∀ (s : State) (d : Byte), s.bytesAtPc 0xF0#8 d → step s =
        .next { s with ir := 0xF0#8, pc := if s.zero = true then s.pc + 2#16 + d.signExtend 16 else s.pc + 2#16 })
    ∧ (∀ (s : State) (d : Byte), s.bytesAtPc 0xD0#8 d → step s =
        .next { s with ir := 0xD0#8, pc := if s.zero = false then s.pc + 2#16 + d.signExtend 16 else s.pc + 2#16 })
    ∧ (∀ (s : State) (d : Byte), s.bytesAtPc 0xB0#8 d → step s =
        .next { s with ir := 0xB0#8, pc := if s.carry = true then s.pc + 2#16 + d.signExtend 16 else s.pc + 2#16 })
    ∧ (∀ (s : State) (d : Byte), s.bytesAtPc 0x90#8 d → step s =
        .next { s with ir := 0x90#8, pc := if s.carry = false then s.pc + 2#16 + d.signExtend 16 else s.pc + 2#16 })

/-- O16. For every state and displacement byte, every branch whose condition holds leaves PC = (pc0 + 2 + signed(disp8))
mod 2^16 and one whose condition fails PC = (pc0 + 2) mod 2^16, where signed(v) = v - 256 v[7]; 2 + signed(disp8)
runs from -126 to 129, both reached. The spec marks the two's-complement reading as general knowledge (log entry
12). (45_branches.md R180, 00_scope.md R9) -/
def Obligations.TakenBranchSignedReach : Prop :=
  (∀ (s t : State) (d : Byte) (i : Instr) (taken : Bool),
      (i, taken) ∈ [(Instr.beq d, s.zero), (.bne d, !s.zero), (.bcs d, s.carry), (.bcc d, !s.carry)] →
      exec i s = .next t →
        let signed : Int := (d.toNat : Int) - (if d.getLsbD 7 then 256 else 0)
        t.pc = BitVec.ofInt 16 ((s.pc.toNat : Int) + 2 + (if taken then signed else 0))
          ∧ -126 ≤ 2 + signed ∧ 2 + signed ≤ 129)
    ∧ (∀ s : State, s.zero = true →
        exec (.beq 0x80#8) s = .next { s with pc := s.pc - 126#16 } ∧ exec (.beq 0x7F#8) s = .next { s with pc := s.pc + 129#16 })

/-- O17. For X and Y: after INX, INY the register is (old + 1) mod 256 and Carry is true exactly if it was true or old +
1 is 256; after DEX, DEY it is old - 1, or 0 from 0, and Carry is kept; Zero is kept by all four. (44_incdec.md
R164, 95_test_vectors.md W2, W3) -/
def Obligations.ArithmeticAsNumbers : Prop :=
  ∀ s : State,
    (∃ t, exec .inx s = .next t ∧ t.x.toNat = (s.x.toNat + 1) % 256
      ∧ (t.carry = true ↔ s.carry = true ∨ s.x.toNat + 1 = 256) ∧ t.zero = s.zero)
    ∧ (∃ t, exec .iny s = .next t ∧ t.y.toNat = (s.y.toNat + 1) % 256
      ∧ (t.carry = true ↔ s.carry = true ∨ s.y.toNat + 1 = 256) ∧ t.zero = s.zero)
    ∧ (∃ t, exec .dex s = .next t ∧ (t.x.toNat : Int) = max ((s.x.toNat : Int) - 1) 0 ∧ t.carry = s.carry ∧ t.zero = s.zero)
    ∧ (∃ t, exec .dey s = .next t ∧ (t.y.toNat : Int) = max ((s.y.toNat : Int) - 1) 0 ∧ t.carry = s.carry ∧ t.zero = s.zero)

/-- O18. With Halt false and PC = 0xFFFF: if LDA, LDX or LDY is at 0xFFFF, the step loads its register with the byte at
0x0000, sets Zero from it and leaves PC = 0x0001; if BEQ, BNE, BCS or BCC is there, PC becomes 0x0001 plus the sign-
extended byte at 0x0000 if the branch is taken, and 0x0001 if not; IR is written and nothing else changes. The spec
marks the rule as its own inference from its other rules. (20_memory.md R54, 30_encoding.md R74, 95_test_vectors.md
V14, V44) -/
def Obligations.OperandAtTopOfMemoryWraps : Prop :=
  ∀ s : State, s.halt = false → s.pc = 0xFFFF#16 →
    let v := s.memRead 0x0000#16
    (s.memRead 0xFFFF#16 = 0xA9#8 →
        step s = .next { s with ir := 0xA9#8, a := v, zero := v == 0x00#8, pc := 0x0001#16 })
    ∧ (s.memRead 0xFFFF#16 = 0xA2#8 →
        step s = .next { s with ir := 0xA2#8, x := v, zero := v == 0x00#8, pc := 0x0001#16 })
    ∧ (s.memRead 0xFFFF#16 = 0xA0#8 →
        step s = .next { s with ir := 0xA0#8, y := v, zero := v == 0x00#8, pc := 0x0001#16 })
    ∧ (s.memRead 0xFFFF#16 = 0xF0#8 → step s =
        .next { s with ir := 0xF0#8, pc := if s.zero = true then 0x0001#16 + v.signExtend 16 else 0x0001#16 })
    ∧ (s.memRead 0xFFFF#16 = 0xD0#8 → step s =
        .next { s with ir := 0xD0#8, pc := if s.zero = false then 0x0001#16 + v.signExtend 16 else 0x0001#16 })
    ∧ (s.memRead 0xFFFF#16 = 0xB0#8 → step s =
        .next { s with ir := 0xB0#8, pc := if s.carry = true then 0x0001#16 + v.signExtend 16 else 0x0001#16 })
    ∧ (s.memRead 0xFFFF#16 = 0x90#8 → step s =
        .next { s with ir := 0x90#8, pc := if s.carry = false then 0x0001#16 + v.signExtend 16 else 0x0001#16 })

/-- O19. If exec of one of them answers t: A, X, Y, SP, Zero, IR, every stack byte and every memory byte are unchanged;
Carry is unchanged unless it is CLC or SEC; Halt is unchanged unless it is HALT. (00_scope.md R11,
41_control_flag.md R110-R114) -/
def Obligations.ControlAndCarryFrame : Prop :=
  ∀ (op : Byte) (i : Instr) (s t : State), i ∈ [.halt, .noop, .unassigned op, .clc, .sec] → exec i s = .next t →
    (∀ r, t.reg r = s.reg r) ∧ t.zero = s.zero ∧ (i ≠ .clc → i ≠ .sec → t.carry = s.carry)
      ∧ (i ≠ .halt → t.halt = s.halt) ∧ SameStorage s t

/-- O20. If exec of LDA, LDX or LDY answers t: every register but its own (A, X, Y), SP, Carry, Halt, IR, every stack
byte and every memory byte are unchanged. (00_scope.md R11, 42_loads.md R130-R133) -/
def Obligations.LoadFrame : Prop :=
  ∀ (v : Byte) (i : Instr) (dst : Reg) (s t : State), (i, dst) ∈ [(Instr.lda v, Reg.a), (.ldx v, .x), (.ldy v, .y)] →
    exec i s = .next t →
      (∀ r, r ≠ dst → t.reg r = s.reg r) ∧ t.carry = s.carry ∧ t.halt = s.halt ∧ SameStorage s t

/-- O21. If exec of a transfer answers t: every register but its destination, all three flags, IR, every stack byte and
every memory byte are unchanged. (00_scope.md R11, 43_transfers.md R140-R148) -/
def Obligations.TransferFrame : Prop :=
  ∀ (i : Instr) (dst : Reg) (s t : State),
    (i, dst) ∈ [(Instr.tax, Reg.x), (.tay, .y), (.tya, .a), (.txa, .a), (.txs, .sp), (.tys, .sp), (.tsx, .x), (.tsy, .y)] →
    exec i s = .next t →
      (∀ r, r ≠ dst → t.reg r = s.reg r) ∧ t.zero = s.zero ∧ t.carry = s.carry ∧ t.halt = s.halt ∧ SameStorage s t

/-- O22. If exec of INY, INX, DEY or DEX answers t: every register but its own, Zero, Halt, IR, every stack byte and
every memory byte are unchanged; Carry is unchanged too unless the instruction is an increment of a register that
holds 0xFF. (00_scope.md R11, 44_incdec.md R160-R163) -/
def Obligations.IncDecFrame : Prop :=
  ∀ (i : Instr) (dst : Reg) (s t : State), (i, dst) ∈ [(Instr.iny, Reg.y), (.inx, .x), (.dey, .y), (.dex, .x)] →
    exec i s = .next t →
      (∀ r, r ≠ dst → t.reg r = s.reg r) ∧ t.zero = s.zero ∧ t.halt = s.halt ∧ SameStorage s t
        ∧ (i = .dey ∨ i = .dex ∨ s.reg dst ≠ 0xFF#8 → t.carry = s.carry)

/-- O23. If exec of BEQ, BNE, BCS or BCC answers t: every register, all three flags, IR, every stack byte and every
memory byte are unchanged. (00_scope.md R11, 45_branches.md R181-R185) -/
def Obligations.BranchFrame : Prop :=
  ∀ (d : Byte) (i : Instr) (s t : State), i ∈ [Instr.beq d, .bne d, .bcs d, .bcc d] → exec i s = .next t →
    (∀ r, t.reg r = s.reg r) ∧ t.zero = s.zero ∧ t.carry = s.carry ∧ t.halt = s.halt ∧ SameStorage s t

/-- O24. For each register and instruction, by the lists of R22 and R26: the instruction is no listed writer exactly if
it leaves the register alone in every state, so a listed one changes it in some state; it is no listed reader
exactly if in every state and for every value put into the register first the outcome is the same (for a writer the
whole outcome, for the others up to that register keeping the value), so the outcome of a listed one depends on it
in some state; reset makes A, X and Y 0x00 and SP 0xFF. The spec marks R22 as its own inference from its other
rules. (10_state.md R22, R26) -/
def Obligations.RegisterWritersAndReaders : Prop :=
  (∀ (r : Reg) (i : Instr), writesReg r i = false ↔ ∀ s t : State, exec i s = .next t → t.reg r = s.reg r)
    ∧ (∀ (r : Reg) (i : Instr), readsReg r i = false ↔ ∀ (s : State) (v : Byte),
        exec i (s.setReg r v) = if writesReg r i then exec i s else mapNext (fun t => t.setReg r v) (exec i s))
    ∧ ∀ s : State, s.hostReset.a = 0x00#8 ∧ s.hostReset.x = 0x00#8 ∧ s.hostReset.y = 0x00#8 ∧ s.hostReset.sp = 0xFF#8

/-- O25. After a load Zero is true exactly if the loaded register is 0; every other instruction leaves it; an
instruction other than BEQ and BNE does the same whatever Zero holds, up to Zero itself; reset makes it true. (R29) -/
def Obligations.ZeroWritersAndReaders : Prop :=
  (∀ (v : Byte) (s t : State), (exec (.lda v) s = .next t → (t.zero = true ↔ t.a = 0x00#8))
      ∧ (exec (.ldx v) s = .next t → (t.zero = true ↔ t.x = 0x00#8))
      ∧ (exec (.ldy v) s = .next t → (t.zero = true ↔ t.y = 0x00#8)))
    ∧ (∀ (i : Instr) (s t : State), exec i s = .next t → isLoad i = false → t.zero = s.zero)
    ∧ (∀ (i : Instr) (s t : State) (b : Bool), (∀ d, i ≠ .beq d ∧ i ≠ .bne d) → exec i s = .next t →
        ∃ t', exec i { s with zero := b } = .next t' ∧ { t' with zero := t.zero } = t)
    ∧ (∀ s : State, s.hostReset.zero = true)

/-- O26. After an instruction Carry is false if it is CLC, true if it is SEC or an increment of a register holding 0xFF,
and otherwise as before; an instruction other than BCS and BCC does the same whatever Carry holds, up to Carry
itself; reset makes it false. (R30) -/
def Obligations.CarryWritersAndReaders : Prop :=
  (∀ (i : Instr) (s t : State), exec i s = .next t → t.carry =
        if i = .clc then false
        else if i = .sec ∨ (i = .inx ∧ s.x = 0xFF#8) ∨ (i = .iny ∧ s.y = 0xFF#8) then true else s.carry)
    ∧ (∀ (i : Instr) (s t : State) (b : Bool), (∀ d, i ≠ .bcs d ∧ i ≠ .bcc d) → exec i s = .next t →
        ∃ t', exec i { s with carry := b } = .next t' ∧ { t' with carry := t.carry } = t)
    ∧ (∀ s : State, s.hostReset.carry = false)

/-- O27. After an instruction Halt is true exactly if it was or the instruction is HALT; fill_memory and load_program
keep it; reset makes it false; the trace shows it; once it is true any number of steps leaves the state as it is.
(R31) -/
def Obligations.HaltWrittenByHaltAndReset : Prop :=
  (∀ (i : Instr) (s t : State), exec i s = .next t → (t.halt = true ↔ s.halt = true ∨ i = .halt))
    ∧ (∀ (s : State) (b : Byte), (s.fillMemory b).halt = s.halt)
    ∧ (∀ (s t : State) (image : List Byte), s.loadProgram image = .loaded t → t.halt = s.halt)
    ∧ (∀ s : State, s.hostReset.halt = false ∧ s.trace.halt = s.halt)
    ∧ ∀ (k : Nat) (s : State), s.halt = true → Sys2Proof.core.run k s = .next s

/-- O28. If a step answers t, memory and the stack array of t are those of the state before it. (20_memory.md R50, R61,
10_state.md R33) -/
def Obligations.StepNeverWritesMemoryOrStack : Prop :=
  ∀ s t : State, step s = .next t →
    t.mem = s.mem ∧ t.stack = s.stack ∧ (∀ addr, t.memRead addr = s.memRead addr) ∧ ∀ i, t.stackRead i = s.stackRead i

/-- O29. Let memory be replaced by any other that has the same byte at PC and, if that opcode is one of the seven 2-byte
ones, the same byte at PC + 1 mod 2^16. Then the step has the same outcome, with the replaced memory in the next
state. (20_memory.md R50, 40_engine.md R92, R93, 30_encoding.md R74) -/
def Obligations.OnlyFetchedBytesMatter : Prop :=
  ∀ (s : State) (m : Cells), s.memRead s.pc = State.memRead { s with mem := m } s.pc →
    (s.memRead s.pc ∈ [0xA9#8, 0xA2#8, 0xA0#8, 0xF0#8, 0xD0#8, 0xB0#8, 0x90#8] →
      s.memRead (s.pc + 1#16) = State.memRead { s with mem := m } (s.pc + 1#16)) →
    step { s with mem := m } = mapNext (fun t => { t with mem := m }) (step s)

/-- O30. With Halt false, replacing IR does not change the outcome of the step at all, and replacing the stack array
changes nothing in it but the stack array. (10_state.md R27, R33) -/
def Obligations.IrAndStackNeverRead : Prop :=
  ∀ (s : State) (v : Byte) (c : Cells), s.halt = false →
    step { s with ir := v } = step s ∧ step { s with stack := c } = mapNext (fun t => { t with stack := c }) (step s)

/-- O31. For every state and every k, running k steps answers a next state, with memory and the stack array unchanged;
and it is halted exactly if it was at the start or the byte at PC was 0x00 in a state the run passed before its k-th
step. (40_engine.md R97, 60_exceptions.md R200) -/
def Obligations.RunsNeverStopShort : Prop :=
  ∀ (k : Nat) (s : State), ∃ t, Sys2Proof.core.run k s = .next t ∧ t.mem = s.mem ∧ t.stack = s.stack
    ∧ (t.halt = true ↔ s.halt = true ∨ ∃ j u, j < k ∧ Sys2Proof.core.run j s = .next u ∧ u.memRead u.pc = 0x00#8)

/-- O32. If a run from a state with Halt false ends after k steps in t (the k-th step is the first that returns true),
then the state before the last step has Halt false and 0x00 at its PC, and t has Halt true, IR 0x00, the same PC and
0x00 at it. If no state of the run has 0x00 at its PC, no state of it is halted. No number of steps faults or
refuses. The spec marks the rule as its own inference from its other rules. (40_engine.md R98) -/
def Obligations.RunEndsAtHaltByte : Prop :=
  (∀ (s t : State) (k : Nat), s.halt = false → EndsAfter s k t →
      t.halt = true ∧ t.ir = 0x00#8 ∧ t.memRead t.pc = 0x00#8
        ∧ ∃ u, Sys2Proof.core.run (k - 1) s = .next u ∧ u.halt = false ∧ u.memRead u.pc = 0x00#8 ∧ t.pc = u.pc)
    ∧ (∀ s : State, s.halt = false →
        (∀ j u, Sys2Proof.core.run j s = .next u → u.memRead u.pc ≠ 0x00#8) →
          ∀ j, ∃ u, Sys2Proof.core.run j s = .next u ∧ u.halt = false)
    ∧ ∀ (s : State) (j : Nat), ∃ u, Sys2Proof.core.run j s = .next u

/-- O33. From every state with Halt false in which the n bytes from PC on (addresses modulo 2^16) are NOOP or
unassigned, n steps lead to the same state with PC plus n and, if n > 0, IR the last of those bytes. With memory all
fill bytes this is the fall-through of R100, over the wrap at 0xFFFF. (40_engine.md R100, 41_control_flag.md R111,
R112, 95_test_vectors.md V49) -/
def Obligations.NoOpStretchAdvancesPc : Prop :=
  ∀ (n : Nat) (s : State), s.halt = false →
    (∀ k, k < n → isNoOpByte (s.memRead (s.pc + BitVec.ofNat 16 k)) = true) →
    Sys2Proof.core.run n s = .next { s with
      pc := s.pc + BitVec.ofNat 16 n
      ir := if n = 0 then s.ir else s.memRead (s.pc + BitVec.ofNat 16 (n - 1)) }

/-- O34. From every state with Halt false in which the n bytes from PC on are NOOP or unassigned and the byte after them
is 0x00, the run ends after exactly n + 1 steps, with PC at that byte, IR 0x00, Halt true and nothing else changed.
(40_engine.md R98, R99, 95_test_vectors.md W5, W7) -/
def Obligations.NoOpStretchThenHaltEndsRun : Prop :=
  ∀ (n : Nat) (s : State), s.halt = false →
    (∀ k, k < n → isNoOpByte (s.memRead (s.pc + BitVec.ofNat 16 k)) = true) →
    s.memRead (s.pc + BitVec.ofNat 16 n) = 0x00#8 →
    EndsAfter s (n + 1) { s with pc := s.pc + BitVec.ofNat 16 n, ir := 0x00#8, halt := true }

/-- O35. For every state that meets the invariant (memory and the stack in canonical form; if Halt is true then IR is
0x00 and the byte at PC is 0x00), if the step answers t then t meets it. That the arrays are lists in canonical form
is the model's choice (log entry 13). (40_engine.md R91, R98, 20_memory.md R50, 10_state.md R31) -/
def Obligations.StepKeepsInvariant : Prop :=
  ∀ s t : State, s.Inv → step s = .next t → t.Inv

/-- O36. State.reset, the launch state with an empty image (log entry 1), has canonical memory and stack, and is not
halted. That the arrays are lists in canonical form is the model's choice (log entry 13). (70_reset_and_hazards.md
R235, 10_state.md R39) -/
def Obligations.ResetMeetsInvariant : Prop :=
  State.reset.Inv ∧ State.reset.halt = false

/-- O37. State.reset is what the boot order leaves with an empty image (the model's choice of the point where it starts,
log entry 1): PC 0x0000, SP 0xFF, A, X, Y 0x00, Zero true, Carry and Halt false, IR 0x00, every stack byte 0x00,
every memory byte 0xFF. (70_reset_and_hazards.md R235, 10_state.md R38, R39) -/
def Obligations.ResetStateIsLaunchState : Prop :=
  State.reset.atLaunch ∧ State.reset.ir = 0x00#8 ∧ (∀ i, State.reset.stackRead i = 0x00#8)
    ∧ (∀ addr, State.reset.memRead addr = 0xFF#8) ∧ boot [] = .loaded State.reset

/-- O38. For every image of at most 65536 bytes, creation, reset, fill_memory(0xFF) and load_program leave a state with
PC 0x0000, SP 0xFF, A, X, Y 0x00, Zero true, Carry and Halt false, IR 0x00, every stack byte 0x00, and at each
address the image's byte, or 0xFF past its end. The spec marks the rule as its own inference from its other rules.
(70_reset_and_hazards.md R234, R235) -/
def Obligations.BootLeavesLaunchState : Prop :=
  ∀ image : List Byte, image.length ≤ 65536 → ∃ t, boot image = .loaded t ∧ t.atLaunch ∧ t.ir = 0x00#8
    ∧ (∀ i, t.stackRead i = 0x00#8) ∧ ∀ addr : Addr, t.memRead addr = image.getD addr.toNat 0xFF#8

/-- O39. From every state: PC 0x0000, SP 0xFF, A, X, Y 0x00, Zero true, Carry and Halt false; IR, the stack array and
memory keep their values. (R230) -/
def Obligations.HostResetResult : Prop :=
  ∀ s : State, s.hostReset.atLaunch ∧ s.hostReset.ir = s.ir ∧ s.hostReset.stack = s.stack ∧ s.hostReset.mem = s.mem

/-- O40. Right after creation every register is 0x00, PC is 0x0000, every flag is false, every stack and memory byte is
0x00; a driver's step in that stage is refused. That the driver's step is refused is the treatment the spec's list
names (log entry 6). (10_state.md R38, 93_implementation_defined.md item 18) -/
def Obligations.CreationState : Prop :=
  (∀ r, State.created.reg r = 0x00#8) ∧ State.created.ir = 0x00#8 ∧ State.created.pc = 0x0000#16
    ∧ State.created.zero = false ∧ State.created.carry = false ∧ State.created.halt = false
    ∧ (∀ i, State.created.stackRead i = 0x00#8) ∧ (∀ addr, State.created.memRead addr = 0x00#8)
    ∧ Session.start.state = State.created ∧ Session.start.apply .step = .refused .stepBeforeBoot

/-- O41. For every state and byte b, every address reads b after fill_memory(b), whatever memory held, and every other
field keeps its value. (10_state.md R35) -/
def Obligations.FillMemoryResult : Prop :=
  ∀ (s : State) (b : Byte), (∀ addr, (s.fillMemory b).memRead addr = b) ∧ s.fillMemory b = { s with mem := (s.fillMemory b).mem }

/-- O42. For every state with canonical memory: an image of more than 65536 bytes gives ProgramTooLarge, and a driver
ready to load keeps its state as it was; any other image, the empty one and one of exactly 65536 bytes included, is
in memory from address 0 on, every byte past it and every register and flag is as before. That the driver's stage
stays ready after a failed load is the model's choice (log entry 7). (10_state.md R36) -/
def Obligations.LoadProgramResult : Prop :=
  ∀ (s : State) (image : List Byte), Memory.wf s.mem = true →
    (image.length > 65536 → s.loadProgram image = .programTooLarge
      ∧ Session.apply (.loadProgram image) { stage := .ready, state := s } = .moved { stage := .ready, state := s } .programTooLarge)
    ∧ (image.length ≤ 65536 → ∃ t, s.loadProgram image = .loaded t ∧ t = { s with mem := t.mem }
        ∧ ∀ addr : Addr, t.memRead addr = image.getD addr.toNat (s.memRead addr))

/-- O43. For every state and integer a, read_byte(a) is the byte the engine reads at a mod 2^16, and the same as
read_byte(a + 65536). The engine's opcode and operand bytes are those at the integers PC and PC + 1; after LDA the
byte at the new PC is the one at PC + 2, and after a taken BEQ the one at PC + 2 + signed(disp8), as integers. No
step raises OutOfBoundsAddress. (R37, R51) -/
def Obligations.ReadByteWraps : Prop :=
  ∀ (s : State) (a : Int), s.readByte a = s.memRead (BitVec.ofInt 16 a) ∧ s.readByte (a + 65536) = s.readByte a
    ∧ s.fetchOpcode = s.readByte s.pc.toNat ∧ s.fetchOperand = s.readByte (s.pc.toNat + 1)
    ∧ (∀ (v : Byte) (t : State), exec (.lda v) s = .next t → t.memRead t.pc = s.readByte (s.pc.toNat + 2))
    ∧ (∀ (d : Byte) (t : State), s.zero = true → exec (.beq d) s = .next t →
        t.memRead t.pc = s.readByte (s.pc.toNat + 2 + d.toInt))
    ∧ step s ≠ .fault .outOfBoundsAddress

/-- O44. For every session of a running stage, a trace read gives Halt, IR and PC of the state as it is, and leaves the
session as it was. (R42) -/
def Obligations.TraceReadChangesNothing : Prop :=
  ∀ z : Session, z.stage = .running →
    z.apply .traceRead = .moved z (.trace { halt := z.state.halt, ir := z.state.ir, pc := z.state.pc })

/-- O45. In the loaded and running stages a driver's step leads to the running stage with the state the core's step
answers and gives back its Halt flag; in every other stage it is refused. How the stages are kept is the model's
choice (log entries 3 and 7). (60_exceptions.md R213, 40_engine.md R96, 70_reset_and_hazards.md R234) -/
def Obligations.DriverStepGivesHalted : Prop :=
  ∀ z : Session, (z.stage = .loaded ∨ z.stage = .running →
      ∃ t, step z.state = .next t ∧ z.apply .step = .moved { stage := .running, state := t } (.halted t.halt))
    ∧ (z.stage ≠ .loaded → z.stage ≠ .running → z.apply .step = .refused .stepBeforeBoot)

/-- O46. After a load, fill_memory with a no-op byte is refused; with an assigned byte other than 0xFF it is refused in
every stage; load_program is refused while a program runs and before memory is filled and the core reset. A move
that is neither reset nor step changes memory alone. A reset in the running stage is a move, which leaves the launch
registers in the loaded stage: the run it was called in is over. No move in the running stage changes memory or the
stack. The order of moves, the move of a reset in a run and the refusal of a load after HALT without a reset among
them, is the model's reading of the table (log entry 7). (60_exceptions.md R213, 10_state.md R35, R41,
93_implementation_defined.md items 18, 19) -/
def Obligations.DriverBreachesHaveNoMove : Prop :=
  (∀ (z : Session) (b : Byte), isNoOpByte b = true → (z.stage = .loaded ∨ z.stage = .running) →
      z.apply (.fillMemory b) = .refused .fillAfterLoad)
    ∧ (∀ (z : Session) (b : Byte), isNoOpByte b = false → z.apply (.fillMemory b) = .refused .fillByteNotNoOp)
    ∧ (∀ (z : Session) (image : List Byte), z.stage = .running → z.apply (.loadProgram image) = .refused .loadDuringRun)
    ∧ (∀ (z : Session) (image : List Byte), (z.stage = .created ∨ z.stage = .resetOnly ∨ z.stage = .filledOnly) →
        z.apply (.loadProgram image) = .refused .loadBeforeInitialised)
    ∧ (∀ (z z' : Session) (op : HostOp) (r : Reply), op ≠ .reset → op ≠ .step → z.apply op = .moved z' r →
        z'.state = { z.state with mem := z'.state.mem })
    ∧ (∀ z : Session, z.stage = .running →
        ∃ t, z.apply .reset = .moved { stage := .loaded, state := t } .done ∧ t.atLaunch)
    ∧ ∀ (z z' : Session) (op : HostOp) (r : Reply), z.stage = .running → z.apply op = .moved z' r →
        z'.state.mem = z.state.mem ∧ z'.state.stack = z.state.stack

/-- O47. For every session reachable from creation by moves the host table allows: the invariant of the step holds,
every stack byte is 0x00, and in the stages after a reset and before the first step the registers and flags are
those of the launch state. The order of moves is the model's reading of the table (log entry 7). That the arrays are
lists in canonical form is the model's choice (log entry 13). (70_reset_and_hazards.md R230, R234, R235, 10_state.md
R33, R41, 60_exceptions.md R213) -/
def Obligations.ReachableSessionsInvariant : Prop :=
  ∀ z : Session, Reachable z → z.state.Inv ∧ (∀ i, z.state.stackRead i = 0x00#8)
    ∧ (z.stage = .resetOnly ∨ z.stage = .ready ∨ z.stage = .loaded → z.state.atLaunch)

/-- O48. For every image of at most 65536 bytes there is a session in the loaded stage, with the state the boot order
leaves, to which both sequences of moves from creation lead, each answering done: reset, fill_memory(0xFF),
load_program and fill_memory(0xFF), reset, load_program. The stages are the model's reading of the boot order (log
entry 7). (70_reset_and_hazards.md R234) -/
def Obligations.BootMovesReachLoadedSession : Prop :=
  ∀ image : List Byte, image.length ≤ 65536 → ∃ z : Session, z.stage = .loaded ∧ boot image = .loaded z.state
    ∧ (∃ z₁ z₂, Session.start.apply .reset = .moved z₁ .done ∧ z₁.apply (.fillMemory 0xFF#8) = .moved z₂ .done
        ∧ z₂.apply (.loadProgram image) = .moved z .done)
    ∧ ∃ z₁ z₂, Session.start.apply (.fillMemory 0xFF#8) = .moved z₁ .done ∧ z₁.apply .reset = .moved z₂ .done
        ∧ z₂.apply (.loadProgram image) = .moved z .done

/-- O49. For every state with canonical memory, if the decoder reads i from a table word, then after placing that word
at PC the core is not halted, PC is as before, memory is unchanged outside the two bytes at PC and PC + 1, and the
step is exec of i with IR holding the opcode byte. Placing an instruction is the model's stand-in for a load (log
entries 1 and 11). (40_engine.md R90, 30_encoding.md R70) -/
def Obligations.PlacedInstructionRunsNext : Prop :=
  ∀ (s : State) (nbits w : Nat) (i : Instr), Memory.wf s.mem = true → decodeTableWord nbits w = some i →
    (s.withFetchWord nbits w).halt = false ∧ (s.withFetchWord nbits w).pc = s.pc
      ∧ (∀ addr, addr ≠ s.pc → addr ≠ s.pc + 1#16 → (s.withFetchWord nbits w).memRead addr = s.memRead addr)
      ∧ step (s.withFetchWord nbits w)
          = exec i { s.withFetchWord nbits w with ir := (s.withFetchWord nbits w).memRead s.pc }

/-- O50. For every well-formed instruction, with its operand byte at every value, and every list of further bytes,
decode of its encoding followed by them is the instruction and the further bytes. That an unassigned byte is an
instruction of its own is the model's choice (log entry 2): R81 maps it to NOOP, whose own encoding is 0xFF.
(30_encoding.md R70-R79) -/
def Obligations.DecodeOfEncode : Prop :=
  ∀ (i : Instr) (rest : List Byte), i.wellFormed = true → decode (encode i ++ rest) = .ok (i, rest)

/-- O51. For every list of bytes, if it decodes to i with some bytes left, then i is well-formed and the list is the
encoding of i followed by those bytes. That an unassigned byte is an instruction of its own is the model's choice
(log entry 2): R81 maps it to NOOP, whose own encoding is 0xFF. (30_encoding.md R70-R79) -/
def Obligations.EncodeOfDecode : Prop :=
  ∀ (bytes rest : List Byte) (i : Instr), decode bytes = .ok (i, rest) → i.wellFormed = true ∧ encode i ++ rest = bytes

/-- O52. For every first byte and every byte after it, decoding consumes two bytes if the first is 0xA9, 0xA2, 0xA0,
0xF0, 0xD0, 0xB0 or 0x90, and one byte otherwise, in which case the bytes after it have no part in the instruction.
The spec marks the rule as its own inference from its other rules. (30_encoding.md R74) -/
def Obligations.LengthFromOpcodeByte : Prop :=
  ∀ (op opnd : Byte) (rest : List Byte),
    (op ∈ [0xA9#8, 0xA2#8, 0xA0#8, 0xF0#8, 0xD0#8, 0xB0#8, 0x90#8] → ∃ i, decode (op :: opnd :: rest) = .ok (i, rest))
      ∧ (op ∉ [0xA9#8, 0xA2#8, 0xA0#8, 0xF0#8, 0xD0#8, 0xB0#8, 0x90#8] →
          ∃ i, ∀ tail, decode (op :: tail) = .ok (i, tail))

/-- O53. A list of bytes is refused exactly if it is empty (missingOpcode) or is the opcode of a 2-byte instruction
alone (missingOperand). That a cut list is refused by name is the model's choice (log entry 4). (30_encoding.md R79,
R81) -/
def Obligations.DecodeRefusesOnlyTruncatedBytes : Prop :=
  ∀ (bytes : List Byte) (e : DecodeError), decode bytes = .error e ↔
    (bytes = [] ∧ e = .missingOpcode) ∨ ∃ op, bytes = [op] ∧ opcodeLength op = 2 ∧ e = .missingOperand op
end

