-- ==== Sys2Proof/Laws/State.lean ====
section
/-! SUPPORT. Each field after each update of the state, so that no later proof unfolds a record update. -/

namespace Sys2Proof.Machine

@[simp] theorem State.setPc_a (s : State) (v : Addr) : (s.setPc v).a = s.a := rfl
@[simp] theorem State.setPc_x (s : State) (v : Addr) : (s.setPc v).x = s.x := rfl
@[simp] theorem State.setPc_y (s : State) (v : Addr) : (s.setPc v).y = s.y := rfl
@[simp] theorem State.setPc_pc (s : State) (v : Addr) : (s.setPc v).pc = v := rfl
@[simp] theorem State.setPc_sp (s : State) (v : Addr) : (s.setPc v).sp = s.sp := rfl
@[simp] theorem State.setPc_ir (s : State) (v : Addr) : (s.setPc v).ir = s.ir := rfl
@[simp] theorem State.setPc_zero (s : State) (v : Addr) : (s.setPc v).zero = s.zero := rfl
@[simp] theorem State.setPc_carry (s : State) (v : Addr) : (s.setPc v).carry = s.carry := rfl
@[simp] theorem State.setPc_halt (s : State) (v : Addr) : (s.setPc v).halt = s.halt := rfl
@[simp] theorem State.setPc_stack (s : State) (v : Addr) : (s.setPc v).stack = s.stack := rfl
@[simp] theorem State.setPc_mem (s : State) (v : Addr) : (s.setPc v).mem = s.mem := rfl

@[simp] theorem State.setZero_a (s : State) (b : Bool) : (s.setZero b).a = s.a := rfl
@[simp] theorem State.setZero_x (s : State) (b : Bool) : (s.setZero b).x = s.x := rfl
@[simp] theorem State.setZero_y (s : State) (b : Bool) : (s.setZero b).y = s.y := rfl
@[simp] theorem State.setZero_pc (s : State) (b : Bool) : (s.setZero b).pc = s.pc := rfl
@[simp] theorem State.setZero_sp (s : State) (b : Bool) : (s.setZero b).sp = s.sp := rfl
@[simp] theorem State.setZero_ir (s : State) (b : Bool) : (s.setZero b).ir = s.ir := rfl
@[simp] theorem State.setZero_zero (s : State) (b : Bool) : (s.setZero b).zero = b := rfl
@[simp] theorem State.setZero_carry (s : State) (b : Bool) : (s.setZero b).carry = s.carry := rfl
@[simp] theorem State.setZero_halt (s : State) (b : Bool) : (s.setZero b).halt = s.halt := rfl
@[simp] theorem State.setZero_stack (s : State) (b : Bool) : (s.setZero b).stack = s.stack := rfl
@[simp] theorem State.setZero_mem (s : State) (b : Bool) : (s.setZero b).mem = s.mem := rfl

@[simp] theorem State.setCarry_a (s : State) (b : Bool) : (s.setCarry b).a = s.a := rfl
@[simp] theorem State.setCarry_x (s : State) (b : Bool) : (s.setCarry b).x = s.x := rfl
@[simp] theorem State.setCarry_y (s : State) (b : Bool) : (s.setCarry b).y = s.y := rfl
@[simp] theorem State.setCarry_pc (s : State) (b : Bool) : (s.setCarry b).pc = s.pc := rfl
@[simp] theorem State.setCarry_sp (s : State) (b : Bool) : (s.setCarry b).sp = s.sp := rfl
@[simp] theorem State.setCarry_ir (s : State) (b : Bool) : (s.setCarry b).ir = s.ir := rfl
@[simp] theorem State.setCarry_zero (s : State) (b : Bool) : (s.setCarry b).zero = s.zero := rfl
@[simp] theorem State.setCarry_carry (s : State) (b : Bool) : (s.setCarry b).carry = b := rfl
@[simp] theorem State.setCarry_halt (s : State) (b : Bool) : (s.setCarry b).halt = s.halt := rfl
@[simp] theorem State.setCarry_stack (s : State) (b : Bool) : (s.setCarry b).stack = s.stack := rfl
@[simp] theorem State.setCarry_mem (s : State) (b : Bool) : (s.setCarry b).mem = s.mem := rfl

@[simp] theorem State.setHalt_a (s : State) (b : Bool) : (s.setHalt b).a = s.a := rfl
@[simp] theorem State.setHalt_x (s : State) (b : Bool) : (s.setHalt b).x = s.x := rfl
@[simp] theorem State.setHalt_y (s : State) (b : Bool) : (s.setHalt b).y = s.y := rfl
@[simp] theorem State.setHalt_pc (s : State) (b : Bool) : (s.setHalt b).pc = s.pc := rfl
@[simp] theorem State.setHalt_sp (s : State) (b : Bool) : (s.setHalt b).sp = s.sp := rfl
@[simp] theorem State.setHalt_ir (s : State) (b : Bool) : (s.setHalt b).ir = s.ir := rfl
@[simp] theorem State.setHalt_zero (s : State) (b : Bool) : (s.setHalt b).zero = s.zero := rfl
@[simp] theorem State.setHalt_carry (s : State) (b : Bool) : (s.setHalt b).carry = s.carry := rfl
@[simp] theorem State.setHalt_halt (s : State) (b : Bool) : (s.setHalt b).halt = b := rfl
@[simp] theorem State.setHalt_stack (s : State) (b : Bool) : (s.setHalt b).stack = s.stack := rfl
@[simp] theorem State.setHalt_mem (s : State) (b : Bool) : (s.setHalt b).mem = s.mem := rfl

@[simp] theorem State.setIr_a (s : State) (v : Byte) : (s.setIr v).a = s.a := rfl
@[simp] theorem State.setIr_x (s : State) (v : Byte) : (s.setIr v).x = s.x := rfl
@[simp] theorem State.setIr_y (s : State) (v : Byte) : (s.setIr v).y = s.y := rfl
@[simp] theorem State.setIr_pc (s : State) (v : Byte) : (s.setIr v).pc = s.pc := rfl
@[simp] theorem State.setIr_sp (s : State) (v : Byte) : (s.setIr v).sp = s.sp := rfl
@[simp] theorem State.setIr_ir (s : State) (v : Byte) : (s.setIr v).ir = v := rfl
@[simp] theorem State.setIr_zero (s : State) (v : Byte) : (s.setIr v).zero = s.zero := rfl
@[simp] theorem State.setIr_carry (s : State) (v : Byte) : (s.setIr v).carry = s.carry := rfl
@[simp] theorem State.setIr_halt (s : State) (v : Byte) : (s.setIr v).halt = s.halt := rfl
@[simp] theorem State.setIr_stack (s : State) (v : Byte) : (s.setIr v).stack = s.stack := rfl
@[simp] theorem State.setIr_mem (s : State) (v : Byte) : (s.setIr v).mem = s.mem := rfl

@[simp] theorem State.memWrite_a (s : State) (k : Addr) (v : Byte) : (s.memWrite k v).a = s.a := rfl
@[simp] theorem State.memWrite_x (s : State) (k : Addr) (v : Byte) : (s.memWrite k v).x = s.x := rfl
@[simp] theorem State.memWrite_y (s : State) (k : Addr) (v : Byte) : (s.memWrite k v).y = s.y := rfl
@[simp] theorem State.memWrite_pc (s : State) (k : Addr) (v : Byte) : (s.memWrite k v).pc = s.pc := rfl
@[simp] theorem State.memWrite_sp (s : State) (k : Addr) (v : Byte) : (s.memWrite k v).sp = s.sp := rfl
@[simp] theorem State.memWrite_ir (s : State) (k : Addr) (v : Byte) : (s.memWrite k v).ir = s.ir := rfl
@[simp] theorem State.memWrite_zero (s : State) (k : Addr) (v : Byte) : (s.memWrite k v).zero = s.zero := rfl
@[simp] theorem State.memWrite_carry (s : State) (k : Addr) (v : Byte) : (s.memWrite k v).carry = s.carry := rfl
@[simp] theorem State.memWrite_halt (s : State) (k : Addr) (v : Byte) : (s.memWrite k v).halt = s.halt := rfl
@[simp] theorem State.memWrite_stack (s : State) (k : Addr) (v : Byte) : (s.memWrite k v).stack = s.stack := rfl
@[simp] theorem State.memWrite_mem (s : State) (k : Addr) (v : Byte) :
    (s.memWrite k v).mem = Cells.write Config.fillByte s.mem k.toNat v := rfl

@[simp] theorem State.setReg_pc (s : State) (r : Reg) (v : Byte) : (s.setReg r v).pc = s.pc := by cases r <;> rfl
@[simp] theorem State.setReg_ir (s : State) (r : Reg) (v : Byte) : (s.setReg r v).ir = s.ir := by cases r <;> rfl
@[simp] theorem State.setReg_zero (s : State) (r : Reg) (v : Byte) : (s.setReg r v).zero = s.zero := by cases r <;> rfl
@[simp] theorem State.setReg_carry (s : State) (r : Reg) (v : Byte) : (s.setReg r v).carry = s.carry := by cases r <;> rfl
@[simp] theorem State.setReg_halt (s : State) (r : Reg) (v : Byte) : (s.setReg r v).halt = s.halt := by cases r <;> rfl
@[simp] theorem State.setReg_stack (s : State) (r : Reg) (v : Byte) : (s.setReg r v).stack = s.stack := by cases r <;> rfl
@[simp] theorem State.setReg_mem (s : State) (r : Reg) (v : Byte) : (s.setReg r v).mem = s.mem := by cases r <;> rfl

@[simp] theorem State.reg_setReg_same (s : State) (r : Reg) (v : Byte) : (s.setReg r v).reg r = v := by cases r <;> rfl

theorem State.reg_setReg_other (s : State) {r q : Reg} (v : Byte) (h : q ≠ r) : (s.setReg r v).reg q = s.reg q := by
  cases r <;> cases q <;> first | rfl | exact absurd rfl h

@[simp] theorem State.setPc_reg (s : State) (v : Addr) (r : Reg) : (s.setPc v).reg r = s.reg r := by cases r <;> rfl
@[simp] theorem State.setZero_reg (s : State) (b : Bool) (r : Reg) : (s.setZero b).reg r = s.reg r := by cases r <;> rfl
@[simp] theorem State.setCarry_reg (s : State) (b : Bool) (r : Reg) : (s.setCarry b).reg r = s.reg r := by cases r <;> rfl
@[simp] theorem State.setHalt_reg (s : State) (b : Bool) (r : Reg) : (s.setHalt b).reg r = s.reg r := by cases r <;> rfl
@[simp] theorem State.setIr_reg (s : State) (v : Byte) (r : Reg) : (s.setIr v).reg r = s.reg r := by cases r <;> rfl

@[simp] theorem State.setPc_memRead (s : State) (v : Addr) (k : Addr) : (s.setPc v).memRead k = s.memRead k := rfl
@[simp] theorem State.setZero_memRead (s : State) (b : Bool) (k : Addr) : (s.setZero b).memRead k = s.memRead k := rfl
@[simp] theorem State.setCarry_memRead (s : State) (b : Bool) (k : Addr) : (s.setCarry b).memRead k = s.memRead k := rfl
@[simp] theorem State.setHalt_memRead (s : State) (b : Bool) (k : Addr) : (s.setHalt b).memRead k = s.memRead k := rfl
@[simp] theorem State.setIr_memRead (s : State) (v : Byte) (k : Addr) : (s.setIr v).memRead k = s.memRead k := rfl
@[simp] theorem State.setReg_memRead (s : State) (r : Reg) (v : Byte) (k : Addr) :
    (s.setReg r v).memRead k = s.memRead k := by cases r <;> rfl

@[simp] theorem State.advance_eq (s : State) (n : Addr) : s.advance n = s.setPc (s.pc + n) := rfl
@[simp] theorem State.latchOpcode_eq (s : State) : s.latchOpcode = s.setIr s.fetchOpcode := rfl
@[simp] theorem State.updateZero_eq (s : State) (v : Byte) : s.updateZero v = s.setZero (zeroOf v) := rfl

/-- What the increments' Carry update does, in one equation: Carry is sticky (spec/10_state.md R30). -/
theorem State.carryOnWrap_eq (s : State) (old : Byte) : s.carryOnWrap old = s.setCarry (s.carry || incWraps old) := by
  unfold State.carryOnWrap
  split <;> cases s <;> simp_all [State.setCarry]

@[simp] theorem State.hostReset_a (s : State) : s.hostReset.a = 0x00#8 := rfl
@[simp] theorem State.hostReset_x (s : State) : s.hostReset.x = 0x00#8 := rfl
@[simp] theorem State.hostReset_y (s : State) : s.hostReset.y = 0x00#8 := rfl
@[simp] theorem State.hostReset_pc (s : State) : s.hostReset.pc = 0x0000#16 := rfl
@[simp] theorem State.hostReset_sp (s : State) : s.hostReset.sp = Config.spReset := rfl
@[simp] theorem State.hostReset_ir (s : State) : s.hostReset.ir = s.ir := rfl
@[simp] theorem State.hostReset_zero (s : State) : s.hostReset.zero = true := rfl
@[simp] theorem State.hostReset_carry (s : State) : s.hostReset.carry = false := rfl
@[simp] theorem State.hostReset_halt (s : State) : s.hostReset.halt = false := rfl
@[simp] theorem State.hostReset_stack (s : State) : s.hostReset.stack = s.stack := rfl
@[simp] theorem State.hostReset_mem (s : State) : s.hostReset.mem = s.mem := rfl

@[simp] theorem State.fillMemory_a (s : State) (b : Byte) : (s.fillMemory b).a = s.a := rfl
@[simp] theorem State.fillMemory_x (s : State) (b : Byte) : (s.fillMemory b).x = s.x := rfl
@[simp] theorem State.fillMemory_y (s : State) (b : Byte) : (s.fillMemory b).y = s.y := rfl
@[simp] theorem State.fillMemory_pc (s : State) (b : Byte) : (s.fillMemory b).pc = s.pc := rfl
@[simp] theorem State.fillMemory_sp (s : State) (b : Byte) : (s.fillMemory b).sp = s.sp := rfl
@[simp] theorem State.fillMemory_ir (s : State) (b : Byte) : (s.fillMemory b).ir = s.ir := rfl
@[simp] theorem State.fillMemory_zero (s : State) (b : Byte) : (s.fillMemory b).zero = s.zero := rfl
@[simp] theorem State.fillMemory_carry (s : State) (b : Byte) : (s.fillMemory b).carry = s.carry := rfl
@[simp] theorem State.fillMemory_halt (s : State) (b : Byte) : (s.fillMemory b).halt = s.halt := rfl
@[simp] theorem State.fillMemory_stack (s : State) (b : Byte) : (s.fillMemory b).stack = s.stack := rfl
@[simp] theorem State.fillMemory_mem (s : State) (b : Byte) :
    (s.fillMemory b).mem = Cells.filled Config.fillByte Config.memSize b := rfl

@[simp] theorem State.created_a : State.created.a = 0x00#8 := rfl
@[simp] theorem State.created_x : State.created.x = 0x00#8 := rfl
@[simp] theorem State.created_y : State.created.y = 0x00#8 := rfl
@[simp] theorem State.created_pc : State.created.pc = 0x0000#16 := rfl
@[simp] theorem State.created_sp : State.created.sp = 0x00#8 := rfl
@[simp] theorem State.created_ir : State.created.ir = 0x00#8 := rfl
@[simp] theorem State.created_zero : State.created.zero = false := rfl
@[simp] theorem State.created_carry : State.created.carry = false := rfl
@[simp] theorem State.created_halt : State.created.halt = false := rfl

end Sys2Proof.Machine
end

