-- ==== Sys2Proof/Laws/Decode.lean ====
section
/-! SUPPORT. What decoding gives: the default arm, the two shapes of a decoded list, and the decoding of a fetch. -/

namespace Sys2Proof

/-- The default arm of the decoder: every byte outside the table (spec/30_encoding.md R79). -/
theorem instrOf_unassigned {op : Byte} (opnd : Byte) (h : isAssigned op = false) : instrOf op opnd = .unassigned op := by
  unfold instrOf
  split <;> first | rfl | exact absurd h (by decide)

/-- An unassigned opcode is one byte long (R74). -/
theorem opcodeLength_unassigned {op : Byte} (h : isAssigned op = false) : opcodeLength op = 1 := by
  revert h
  revert op
  decide

/-- Decoding a list that holds at least two bytes, which is what a fetch sees. -/
theorem decode_two (op opnd : Byte) (rest : List Byte) :
    decode (op :: opnd :: rest) =
      if opcodeLength op = 2 then .ok (instrOf op opnd, rest) else .ok (instrOf op 0x00#8, opnd :: rest) := rfl

/-- The decoder read as the fetch reads it: the bytes at PC decode to the instruction the step executes. -/
theorem Machine.decode_fetchBytes (s : Machine.State) :
    ∃ rest, decode s.fetchBytes = .ok (s.fetchInstr, rest) := by
  unfold Machine.State.fetchBytes Machine.State.fetchInstr
  rw [decode_two]
  split
  · exact ⟨_, rfl⟩
  · exact ⟨_, rfl⟩

end Sys2Proof
end

