-- ==== Sys2Proof/Laws/Memory.lean ====
section
/-! SUPPORT. The laws of the byte arrays: what a read gives after each operation, and that each operation keeps the
canonical form. -/

namespace Sys2Proof.Machine

variable {d : Byte} {size : Nat}

/-- A canonical array lists nothing below where it starts. -/
theorem Cells.read_below {m : Cells} {lo k : Nat} (h : Cells.wfFrom d size lo m = true) (hk : k < lo) :
    Cells.read d m k = d := by
  induction m generalizing lo with
  | nil => rfl
  | cons c rest ih =>
    obtain ⟨i, v⟩ := c
    simp only [Cells.wfFrom, Bool.and_eq_true, decide_eq_true_eq] at h
    rw [Cells.read, if_neg (by omega), ih h.2 (by omega)]

/-- A canonical array is canonical from every lower start too. -/
theorem Cells.wfFrom_mono {m : Cells} {lo lo' : Nat} (h : Cells.wfFrom d size lo m = true) (hl : lo' ≤ lo) :
    Cells.wfFrom d size lo' m = true := by
  cases m with
  | nil => rfl
  | cons c rest =>
    obtain ⟨i, v⟩ := c
    simp only [Cells.wfFrom, Bool.and_eq_true, decide_eq_true_eq] at h ⊢
    exact ⟨⟨⟨by omega, h.1.1.2⟩, h.1.2⟩, h.2⟩

/-- A write keeps the canonical form. -/
theorem Cells.wfFrom_write {m : Cells} {lo k : Nat} (v : Byte) (h : Cells.wfFrom d size lo m = true) (hl : lo ≤ k)
    (hk : k < size) : Cells.wfFrom d size lo (Cells.write d m k v) = true := by
  induction m generalizing lo with
  | nil =>
    rw [Cells.write]
    split
    · rfl
    · simp_all [Cells.wfFrom]
  | cons c rest ih =>
    obtain ⟨i, u⟩ := c
    have h' := h
    simp only [Cells.wfFrom, Bool.and_eq_true, decide_eq_true_eq] at h'
    obtain ⟨⟨⟨hlo, hi⟩, hu⟩, hrest⟩ := h'
    rw [Cells.write]
    by_cases hki : k < i
    · rw [if_pos hki]
      split
      · exact h
      · simp_all [Cells.wfFrom]
    · rw [if_neg hki]
      by_cases he : k = i
      · rw [if_pos he]
        split
        · exact Cells.wfFrom_mono hrest (by omega)
        · simp_all [Cells.wfFrom]
      · rw [if_neg he]
        have := ih hrest (by omega)
        simp_all [Cells.wfFrom]

/-- A read after a write to the same index gives the byte written. -/
theorem Cells.read_write_same {m : Cells} {lo k : Nat} (v : Byte) (h : Cells.wfFrom d size lo m = true) :
    Cells.read d (Cells.write d m k v) k = v := by
  induction m generalizing lo with
  | nil =>
    rw [Cells.write]
    split <;> simp_all [Cells.read]
  | cons c rest ih =>
    obtain ⟨i, u⟩ := c
    have h' := h
    simp only [Cells.wfFrom, Bool.and_eq_true, decide_eq_true_eq] at h'
    rw [Cells.write]
    by_cases hki : k < i
    · rw [if_pos hki]
      split
      · rename_i hv
        rw [hv, Cells.read, if_neg (by omega), Cells.read_below h'.2 (by omega)]
      · simp [Cells.read]
    · rw [if_neg hki]
      by_cases he : k = i
      · rw [if_pos he]
        split
        · rename_i hv
          rw [hv, Cells.read_below h'.2 (by omega)]
        · simp [Cells.read]
      · rw [if_neg he, Cells.read, if_neg (by omega), ih h'.2]

/-- A write leaves every other index alone. -/
theorem Cells.read_write_other {m : Cells} {k j : Nat} (v : Byte) (hj : j ≠ k) :
    Cells.read d (Cells.write d m k v) j = Cells.read d m j := by
  induction m with
  | nil =>
    rw [Cells.write]
    split <;> simp_all [Cells.read, Ne.symm hj]
  | cons c rest ih =>
    obtain ⟨i, u⟩ := c
    rw [Cells.write]
    by_cases hki : k < i
    · rw [if_pos hki]
      split
      · rfl
      · rw [Cells.read, if_neg (Ne.symm hj)]
    · rw [if_neg hki]
      by_cases he : k = i
      · rw [if_pos he]
        split
        · rw [Cells.read, if_neg (by omega)]
        · rw [Cells.read, Cells.read, if_neg (by omega), if_neg (by omega)]
      · rw [if_neg he, Cells.read, Cells.read, ih]

/-- Writing a list of bytes keeps the canonical form, if they all fit. -/
theorem Cells.wf_writeAll {m : Cells} (k : Nat) (bytes : List Byte) (h : Cells.wf d size m = true)
    (hk : k + bytes.length ≤ size) : Cells.wf d size (Cells.writeAll d m k bytes) = true := by
  induction bytes generalizing m k with
  | nil => exact h
  | cons b rest ih =>
    rw [List.length_cons] at hk
    exact ih (k + 1) (Cells.wfFrom_write b h (Nat.zero_le k) (by omega)) (by omega)

/-- A list of bytes leaves every index below it alone. -/
theorem Cells.read_writeAll_below {m : Cells} {k j : Nat} (bytes : List Byte) (hj : j < k) :
    Cells.read d (Cells.writeAll d m k bytes) j = Cells.read d m j := by
  induction bytes generalizing m k with
  | nil => rfl
  | cons b rest ih => rw [Cells.writeAll, ih (by omega), Cells.read_write_other b (by omega)]

/-- What any index at or above the first one written reads as after a list of bytes is written. -/
theorem Cells.read_writeAll {m : Cells} {k : Nat} (bytes : List Byte) (i : Nat) (h : Cells.wf d size m = true)
    (hk : k + bytes.length ≤ size) :
    Cells.read d (Cells.writeAll d m k bytes) (k + i) = (bytes[i]?).getD (Cells.read d m (k + i)) := by
  induction bytes generalizing m k i with
  | nil => rfl
  | cons b rest ih =>
    rw [List.length_cons] at hk
    have hw := Cells.wfFrom_write b h (Nat.zero_le k) (show k < size by omega)
    cases i with
    | zero =>
      rw [Cells.writeAll, Cells.read_writeAll_below rest (by omega)]
      exact Cells.read_write_same b h
    | succ i =>
      rw [Cells.writeAll, show k + (i + 1) = k + 1 + i by omega, ih i hw (by omega)]
      simp [Cells.read_write_other b (show k + 1 + i ≠ k by omega)]

/-- What an ascending run of equal cells reads as. -/
theorem Cells.read_map_range (start len k : Nat) (b : Byte) :
    Cells.read d ((List.range' start len).map fun j => (j, b)) k = if start ≤ k ∧ k < start + len then b else d := by
  induction len generalizing start with
  | zero => rw [if_neg (by omega)]; rfl
  | succ len ih =>
    rw [List.range'_succ, List.map_cons, Cells.read, ih]
    by_cases h : start = k
    · rw [if_pos h, if_pos (by omega)]
    · rw [if_neg h]
      congr 1
      simp only [eq_iff_iff]
      omega

/-- A filled array reads as the fill byte at every index. -/
theorem Cells.read_filled (b : Byte) {k : Nat} (hk : k < size) : Cells.read d (Cells.filled d size b) k = b := by
  unfold Cells.filled
  split
  · simp_all [Cells.read]
  · rw [List.range_eq_range', Cells.read_map_range, if_pos (by omega)]

/-- A filled array is canonical. -/
theorem Cells.wf_filled (b : Byte) : Cells.wf d size (Cells.filled d size b) = true := by
  unfold Cells.filled Cells.wf
  split
  · rfl
  · rename_i hb
    rw [List.range_eq_range']
    suffices h : ∀ start len, start + len ≤ size →
        Cells.wfFrom d size start ((List.range' start len).map fun j => (j, b)) = true from h 0 size (by omega)
    intro start len hl
    induction len generalizing start with
    | zero => rfl
    | succ len ih =>
      rw [List.range'_succ, List.map_cons, Cells.wfFrom, ih (start + 1) (by omega)]
      simp [hb]
      omega

end Sys2Proof.Machine
end

