-- ==== Sys2Proof/Laws/Step.lean ====
section
/-! SUPPORT. One lemma per shared operation saying everything it does, and the cases of a step. -/

namespace Sys2Proof.Machine

/-- All a load does (spec/42_loads.md R133). -/
theorem loadImmediate_next (dst : Reg) (v : Byte) (s : State) :
    loadImmediate dst v s = .next (((s.setReg dst v).setZero (v == 0x00#8)).setPc (s.pc + 2#16)) := by
  cases dst <;> rfl

/-- All a transfer does (spec/43_transfers.md R148). -/
theorem transfer_next (src dst : Reg) (s : State) :
    transfer src dst s = .next ((s.setReg dst (s.reg src)).setPc (s.pc + 1#16)) := by
  cases dst <;> rfl

/-- All an increment does, Carry being sticky (spec/44_incdec.md R160, R161). -/
theorem increment_next (r : Reg) (s : State) :
    increment r s =
      .next (((s.setReg r (s.reg r + 1#8)).setCarry (s.carry || s.reg r == 0xFF#8)).setPc (s.pc + 1#16)) := by
  unfold increment
  rw [State.carryOnWrap_eq]
  simp [incWraps]

/-- All a decrement does (R162, R163). -/
theorem decrement_next (r : Reg) (s : State) :
    decrement r s = .next ((s.setReg r (decSaturating (s.reg r))).setPc (s.pc + 1#16)) := by
  cases r <;> rfl

/-- All a branch does (spec/45_branches.md R180). -/
theorem branchIf_next (taken : Bool) (d : Byte) (s : State) :
    branchIf taken d s = .next (s.setPc (if taken then s.pc + 2#16 + sext16 d else s.pc + 2#16)) := rfl

/-- The model's sign extension is the two's-complement one (spec/00_scope.md R9). -/
theorem sext16_eq_signExtend (v : Byte) : sext16 v = v.signExtend 16 := by
  revert v
  decide

/-- The decremented value as a number: truncated subtraction (R164). -/
theorem decSaturating_toNat (v : Byte) : (decSaturating v).toNat = v.toNat - 1 := by
  revert v
  decide

/-- The state an instruction leaves; every meaning answers one (spec/60_exceptions.md R200). -/
theorem exec_answers (i : Instr) (s : State) : (nextState (exec i s)).isSome = true := by
  cases i <;> rfl

/-- No instruction writes either byte array or IR (spec/20_memory.md R50, spec/10_state.md R33). -/
theorem exec_keeps_arrays {i : Instr} {s t : State} (h : exec i s = .next t) :
    t.mem = s.mem ∧ t.stack = s.stack ∧ t.ir = s.ir := by
  cases i <;> simp only [exec, execHalt, execNoop, execUnassigned, execClc, execSec, execLda, execLdx, execLdy, execTax,
    execTay, execTya, execTxa, execTxs, execTys, execTsx, execTsy, execIny, execInx, execDey, execDex, execBeq, execBne,
    execBcs, execBcc, noEffect, loadImmediate_next, transfer_next, increment_next, decrement_next, branchIf_next] at h <;>
    cases h <;> simp

/-- The one instruction that writes Halt (spec/10_state.md R31). -/
theorem exec_halt_iff {i : Instr} {s t : State} (h : exec i s = .next t) :
    t.halt = true ↔ s.halt = true ∨ i = .halt := by
  cases i <;> simp only [exec, execHalt, execNoop, execUnassigned, execClc, execSec, execLda, execLdx, execLdy, execTax,
    execTay, execTya, execTxa, execTxs, execTys, execTsx, execTsy, execIny, execInx, execDey, execDex, execBeq, execBne,
    execBcs, execBcc, noEffect, loadImmediate_next, transfer_next, increment_next, decrement_next, branchIf_next] at h <;>
    cases h <;> simp

/-- HALT is the instruction of opcode 0x00 and of no other. -/
theorem instrOf_eq_halt (op opnd : Byte) : instrOf op opnd = .halt ↔ op = 0x00#8 := by
  unfold instrOf
  split <;> simp_all

/-- What a fetch of HALT means in memory. -/
theorem State.fetchInstr_eq_halt (s : State) : s.fetchInstr = .halt ↔ s.fetchOpcode = 0x00#8 := by
  unfold State.fetchInstr
  split <;> exact instrOf_eq_halt _ _

/-- The cases of a step: nothing on a halted machine, else the fetched instruction with IR written (R90, R91). -/
theorem step_cases {s t : State} (h : step s = .next t) :
    (s.halt = true ∧ t = s) ∨ (s.halt = false ∧ exec s.fetchInstr s.latchOpcode = .next t) := by
  unfold step at h
  split at h
  · exact .inl ⟨‹_›, by cases h; rfl⟩
  · exact .inr ⟨by simp_all, h⟩

/-- A step of a machine that is not halted. -/
theorem step_of_running {s : State} (h : s.halt = false) : step s = exec s.fetchInstr s.latchOpcode := by
  simp [step, h]

/-- The fetch of a one-byte instruction. -/
theorem State.fetchInstr_one {s : State} {op : Byte} (h : s.memRead s.pc = op) (hl : opcodeLength op = 1) :
    s.fetchInstr = instrOf op 0x00#8 := by
  simp [State.fetchInstr, State.fetchOpcode, h, hl]

/-- The fetch of a two-byte instruction. -/
theorem State.fetchInstr_two {s : State} {op v : Byte} (h : s.memRead s.pc = op) (hv : s.memRead (s.pc + 1#16) = v)
    (hl : opcodeLength op = 2) : s.fetchInstr = instrOf op v := by
  simp [State.fetchInstr, State.fetchOpcode, State.fetchOperand, h, hv, hl]

/-- A run of the core, one step first. -/
theorem run_succ {k : Nat} {s t : State} (h : step s = .next t) :
    Sys2Proof.core.run (k + 1) s = Sys2Proof.core.run k t := by
  have h' : Sys2Proof.core.step s = .next t := h
  simp only [Host.Core.run, h']

/-- A step that answers writes neither array (spec/20_memory.md R50, spec/10_state.md R33). -/
theorem step_keeps_arrays {s t : State} (h : step s = .next t) : t.mem = s.mem ∧ t.stack = s.stack := by
  rcases step_cases h with ⟨_, rfl⟩ | ⟨_, he⟩
  · exact ⟨rfl, rfl⟩
  · exact ⟨(exec_keeps_arrays he).1, (exec_keeps_arrays he).2.1⟩

/-- A run that answers writes neither array. -/
theorem run_keeps_arrays (k : Nat) {s t : State} (h : Sys2Proof.core.run k s = .next t) :
    t.mem = s.mem ∧ t.stack = s.stack := by
  induction k generalizing s with
  | zero => cases h; exact ⟨rfl, rfl⟩
  | succ k ih =>
    cases hs : step s with
    | next u =>
      rw [run_succ hs] at h
      exact ⟨(ih h).1.trans (step_keeps_arrays hs).1, (ih h).2.trans (step_keeps_arrays hs).2⟩
    | fault r =>
      have hs' : Sys2Proof.core.step s = .fault r := hs
      simp [Host.Core.run, hs'] at h
    | refused r =>
      have hs' : Sys2Proof.core.step s = .refused r := hs
      simp [Host.Core.run, hs'] at h

/-- The image is in canonical memory after `load_program` (spec/10_state.md R36). -/
theorem State.loadProgram_keeps_wf {s t : State} {image : List Byte} (h : s.loadProgram image = .loaded t)
    (hw : Memory.wf s.mem = true) : Memory.wf t.mem = true := by
  unfold State.loadProgram at h
  split at h
  · cases h
  · cases h
    exact Cells.wf_writeAll _ _ hw (by simp only [Config.loadBase, Config.memSize] at *; omega)

/-- `fill_memory` leaves canonical memory (R35). -/
theorem State.fillMemory_wf (s : State) (b : Byte) : Memory.wf (s.fillMemory b).mem = true := Cells.wf_filled b

/-- A write of one byte keeps memory canonical. -/
theorem State.memWrite_keeps_wf {s : State} (k : Addr) (v : Byte) (h : Memory.wf s.mem = true) :
    Memory.wf (s.memWrite k v).mem = true :=
  Cells.wfFrom_write v h (Nat.zero_le _) (by have := k.isLt; simp only [Config.memSize]; omega)

/-- A read after a write to the same address. -/
theorem State.memRead_memWrite_same {s : State} (k : Addr) (v : Byte) (h : Memory.wf s.mem = true) :
    (s.memWrite k v).memRead k = v := Cells.read_write_same v h

/-- A read after a write to another address. -/
theorem State.memRead_memWrite_other (s : State) {k j : Addr} (v : Byte) (h : j ≠ k) :
    (s.memWrite k v).memRead j = s.memRead j :=
  Cells.read_write_other v (fun e => h (BitVec.eq_of_toNat_eq e))

/-- Both arrays are canonical in the state a run starts from. -/
theorem State.reset_arrays_wf : Memory.wf State.reset.mem = true ∧ Stack.wf State.reset.stack = true := by decide

/-- Memory and the stack in the creation state are arrays filled with 0x00 (spec/10_state.md R38). -/
theorem State.created_arrays :
    State.created.mem = Cells.filled Config.fillByte Config.memSize 0x00#8
      ∧ State.created.stack = Cells.filled Config.stackByte Config.stackSize 0x00#8 := by
  simp only [State.created, and_self]

/-- Both arrays are canonical in the creation state. -/
theorem State.created_arrays_wf : Memory.wf State.created.mem = true ∧ Stack.wf State.created.stack = true := by
  rw [State.created_arrays.1, State.created_arrays.2]
  exact ⟨Cells.wf_filled _, Cells.wf_filled _⟩

end Sys2Proof.Machine
end

