-- ==== Sys2Proof/Laws/HostOps.lean ====
section
/-! SUPPORT. What the host operations leave, without evaluating an array of 65536 bytes. -/

namespace Sys2Proof.Machine

/-- The stack lists nothing in the creation state, since it holds 0x00 everywhere (spec/10_state.md R38). -/
theorem State.created_stack : State.created.stack = [] := by
  rw [State.created_arrays.2]
  rfl

/-- Memory lists nothing after a fill with the fill byte (R35). -/
theorem State.fillMemory_fillByte (s : State) : s.fillMemory Config.fillByte = { s with mem := [] } := by
  simp [State.fillMemory, Cells.filled]

/-- Reset and fill, in this order, lead from creation to the state a run starts from (spec/70_reset_and_hazards.md R234). -/
theorem State.created_reset_fill : State.created.hostReset.fillMemory Config.fillByte = State.reset := by
  rw [State.fillMemory_fillByte]
  simp [State.hostReset, State.created_stack, State.reset]

/-- Reset and fill commute: they write disjoint state (R234). -/
theorem State.fillMemory_hostReset (s : State) (b : Byte) : (s.fillMemory b).hostReset = s.hostReset.fillMemory b := by
  simp only [State.fillMemory, State.hostReset]

end Sys2Proof.Machine
end

