-- ==== Sys2Proof/Laws/PerInstr.lean ====
section
/-! SUPPORT. A law of every instruction, one lemma per constructor: its encoding is as long as its opcode byte says. -/

namespace Sys2Proof.Laws.EncodedLength

/-- The encoding is not empty, and its length is the one R74 gives its first byte. -/
def Statement (i : Instr) : Prop :=
  i.wellFormed = true → ∃ op rest, encode i = op :: rest ∧ rest.length + 1 = opcodeLength op

theorem halt : Statement .halt := fun _ => ⟨_, _, rfl, by decide⟩
theorem noop : Statement .noop := fun _ => ⟨_, _, rfl, by decide⟩
theorem clc : Statement .clc := fun _ => ⟨_, _, rfl, by decide⟩
theorem sec : Statement .sec := fun _ => ⟨_, _, rfl, by decide⟩
theorem lda (imm8 : Byte) : Statement (.lda imm8) := fun _ => ⟨_, _, rfl, rfl⟩
theorem ldx (imm8 : Byte) : Statement (.ldx imm8) := fun _ => ⟨_, _, rfl, rfl⟩
theorem ldy (imm8 : Byte) : Statement (.ldy imm8) := fun _ => ⟨_, _, rfl, rfl⟩
theorem tax : Statement .tax := fun _ => ⟨_, _, rfl, by decide⟩
theorem tay : Statement .tay := fun _ => ⟨_, _, rfl, by decide⟩
theorem tya : Statement .tya := fun _ => ⟨_, _, rfl, by decide⟩
theorem txa : Statement .txa := fun _ => ⟨_, _, rfl, by decide⟩
theorem txs : Statement .txs := fun _ => ⟨_, _, rfl, by decide⟩
theorem tys : Statement .tys := fun _ => ⟨_, _, rfl, by decide⟩
theorem tsx : Statement .tsx := fun _ => ⟨_, _, rfl, by decide⟩
theorem tsy : Statement .tsy := fun _ => ⟨_, _, rfl, by decide⟩
theorem iny : Statement .iny := fun _ => ⟨_, _, rfl, by decide⟩
theorem inx : Statement .inx := fun _ => ⟨_, _, rfl, by decide⟩
theorem dey : Statement .dey := fun _ => ⟨_, _, rfl, by decide⟩
theorem dex : Statement .dex := fun _ => ⟨_, _, rfl, by decide⟩
theorem beq (disp8 : Byte) : Statement (.beq disp8) := fun _ => ⟨_, _, rfl, rfl⟩
theorem bne (disp8 : Byte) : Statement (.bne disp8) := fun _ => ⟨_, _, rfl, rfl⟩
theorem bcs (disp8 : Byte) : Statement (.bcs disp8) := fun _ => ⟨_, _, rfl, rfl⟩
theorem bcc (disp8 : Byte) : Statement (.bcc disp8) := fun _ => ⟨_, _, rfl, rfl⟩

theorem unassigned (opcode : Byte) : Statement (.unassigned opcode) := fun h =>
  ⟨_, _, rfl, (opcodeLength_unassigned (by simpa [Instr.wellFormed] using h)).symm⟩

end Sys2Proof.Laws.EncodedLength
end

