-- ==== Sys2Proof/Tests/Slice0.lean ====
section
/-! SUPPORT. Tests of single steps with expected results from spec/95_test_vectors.md and the rules, words written out from
the encodings, and a witness for each statement that has hypotheses. -/

namespace Sys2Proof.Tests

open Sys2Proof.Machine

/-- The start state with PC at `pc` and `bytes` stored there. -/
def placed (pc : Addr) (bytes : List Byte) : State := { State.reset with pc := pc }.placeAtPc bytes

/-- A field of the state after one step of `s`. -/
def after {α : Type} (s : State) (f : State → α) : Option α := (nextState (step s)).map f

/-! ### Well-formedness -/

/-- An assigned byte is no unassigned opcode (spec/41_control_flag.md R112). -/
theorem test_wellFormed_refuses_assigned : (Instr.unassigned 0xA9#8).wellFormed = false := by decide
theorem test_wellFormed_takes_unassigned : (Instr.unassigned 0x4C#8).wellFormed = true := by decide

/-! ### Decoding: each opcode byte in binary, from the grid of spec/30_encoding.md R78 -/

theorem test_decode_control : decode [0b00000000#8] = .ok (.halt, []) ∧ decode [0b11111111#8] = .ok (.noop, [])
    ∧ decode [0b00011000#8] = .ok (.clc, []) ∧ decode [0b00111000#8] = .ok (.sec, []) := by decide
theorem test_decode_loads : decode [0b10101001#8, 0x05#8] = .ok (.lda 0x05#8, [])
    ∧ decode [0b10100010#8, 0x00#8] = .ok (.ldx 0x00#8, []) ∧ decode [0b10100000#8, 0xFF#8] = .ok (.ldy 0xFF#8, []) := by decide
theorem test_decode_transfers_general : decode [0b10101010#8] = .ok (.tax, []) ∧ decode [0b10101000#8] = .ok (.tay, [])
    ∧ decode [0b10011000#8] = .ok (.tya, []) ∧ decode [0b10001010#8] = .ok (.txa, []) := by decide
theorem test_decode_transfers_sp : decode [0b10011010#8] = .ok (.txs, []) ∧ decode [0b10010001#8] = .ok (.tys, [])
    ∧ decode [0b10111010#8] = .ok (.tsx, []) ∧ decode [0b10010010#8] = .ok (.tsy, []) := by decide
theorem test_decode_incDec : decode [0b11001000#8] = .ok (.iny, []) ∧ decode [0b11101000#8] = .ok (.inx, [])
    ∧ decode [0b10001000#8] = .ok (.dey, []) ∧ decode [0b11001010#8] = .ok (.dex, []) := by decide
theorem test_decode_branches : decode [0b11110000#8, 0xFE#8] = .ok (.beq 0xFE#8, [])
    ∧ decode [0b11010000#8, 0x7F#8] = .ok (.bne 0x7F#8, []) ∧ decode [0b10110000#8, 0x80#8] = .ok (.bcs 0x80#8, [])
    ∧ decode [0b10010000#8, 0xFD#8] = .ok (.bcc 0xFD#8, []) := by decide
theorem test_decode_unassigned : decode [0b01001100#8, 0x12#8] = .ok (.unassigned 0x4C#8, [0x12#8])
    ∧ decode [0b00000001#8] = .ok (.unassigned 0x01#8, []) := by decide
theorem test_decode_truncated : decode [] = .error .missingOpcode ∧ decode [0xA9#8] = .error (.missingOperand 0xA9#8) := by decide

/-- The table's numbering: the operand is bits 15 to 8. -/
theorem test_decodeTableWord : decodeTableWord 16 0x05A9 = some (.lda 0x05#8) ∧ decodeTableWord 8 0x05A9 = some (.lda 0x00#8)
    ∧ decodeTableWord 8 0xFF = some .noop := by decide

/-! ### Single steps: the vectors of spec/95_test_vectors.md by number -/

theorem test_halt_V1 : after (placed 0x0123#16 [0x00#8]) State.trace = some { halt := true, ir := 0x00#8, pc := 0x0123#16 } := by decide
theorem test_halted_V2 : after { placed 0x0123#16 [0x18#8] with halt := true, carry := true } (fun s => (s.trace, s.carry))
    = some ({ halt := true, ir := 0x00#8, pc := 0x0123#16 }, true) := by decide
theorem test_noop_V4 : after (placed 0xFFFF#16 [0xFF#8]) State.trace = some { halt := false, ir := 0xFF#8, pc := 0x0000#16 } := by decide
theorem test_unassigned_V5 : after (placed 0x0020#16 [0x4C#8]) State.trace = some { halt := false, ir := 0x4C#8, pc := 0x0021#16 } := by decide
theorem test_clc_V7 : after { placed 0x0000#16 [0x18#8] with carry := true } (fun s => (s.carry, s.zero)) = some (false, true) := by decide
theorem test_sec_V9 : after { placed 0x0000#16 [0x38#8] with zero := false } (fun s => (s.carry, s.zero)) = some (true, false) := by decide
theorem test_lda_V10 : after { placed 0x0000#16 [0xA9#8, 0x80#8] with carry := true } (fun s => (s.a, s.zero, s.carry))
    = some (0x80#8, false, true) := by decide
theorem test_lda_V14 : after (placed 0xFFFF#16 [0xA9#8, 0x42#8]) (fun s => (s.a, s.zero, s.pc)) = some (0x42#8, false, 0x0001#16) := by decide
theorem test_ldx_V12 : after (placed 0x0000#16 [0xA2#8, 0xFF#8]) (fun s => (s.x, s.zero)) = some (0xFF#8, false) := by decide
theorem test_ldy_V13 : after { placed 0x0000#16 [0xA0#8, 0x00#8] with zero := false, y := 0x09#8 } (fun s => (s.y, s.zero))
    = some (0x00#8, true) := by decide
theorem test_tax_V16 : after { placed 0x0000#16 [0xAA#8] with x := 0x55#8, zero := false } (fun s => (s.x, s.zero)) = some (0x00#8, false) := by decide
theorem test_tay_V17 : after { placed 0x0000#16 [0xA8#8] with a := 0x80#8, x := 0x11#8, y := 0x22#8 } (fun s => (s.x, s.y))
    = some (0x11#8, 0x80#8) := by decide
theorem test_tya_V18 : after { placed 0x0000#16 [0x98#8] with y := 0x07#8, a := 0xAA#8 } State.a = some 0x07#8 := by decide
theorem test_txa_V19 : after { placed 0x0000#16 [0x8A#8] with x := 0xFE#8 } (fun s => (s.a, s.zero)) = some (0xFE#8, true) := by decide
theorem test_txs_V20 : after (placed 0x0000#16 [0x9A#8]) State.sp = some 0x00#8 := by decide
theorem test_tys_V21 : after { placed 0x0000#16 [0x91#8] with y := 0x80#8 } State.sp = some 0x80#8 := by decide
theorem test_tsx_V22 : after (placed 0x0000#16 [0xBA#8]) (fun s => (s.x, s.zero)) = some (0xFF#8, true) := by decide
theorem test_tsy_V23 : after { placed 0x0000#16 [0x92#8] with sp := 0x42#8 } State.y = some 0x42#8 := by decide
theorem test_iny_V24 : after { placed 0x0000#16 [0xC8#8] with y := 0xFF#8, zero := false } (fun s => (s.y, s.carry, s.zero))
    = some (0x00#8, true, false) := by decide
theorem test_iny_V25 : after { placed 0x0000#16 [0xC8#8] with y := 0x7F#8, carry := true } (fun s => (s.y, s.carry)) = some (0x80#8, true) := by decide
theorem test_inx_V26 : after { placed 0x0000#16 [0xE8#8] with x := 0xFE#8 } (fun s => (s.x, s.carry)) = some (0xFF#8, false) := by decide
theorem test_dey_V28 : after { placed 0x0000#16 [0x88#8] with carry := true } (fun s => (s.y, s.carry, s.zero)) = some (0x00#8, true, true) := by decide
theorem test_dey_V29 : after { placed 0x0000#16 [0x88#8] with y := 0x01#8, zero := false } (fun s => (s.y, s.zero)) = some (0x00#8, false) := by decide
theorem test_dex_V31 : after { placed 0x0000#16 [0xCA#8] with x := 0x80#8 } State.x = some 0x7F#8 := by decide
theorem test_beq_V34 : after (placed 0x0010#16 [0xF0#8, 0xFE#8]) State.pc = some 0x0010#16 := by decide
theorem test_beq_V44 : after (placed 0xFFFF#16 [0xF0#8, 0x04#8]) State.pc = some 0x0005#16 := by decide
theorem test_bne_V37 : after { placed 0x0100#16 [0xD0#8, 0x80#8] with zero := false } State.pc = some 0x0082#16 := by decide
theorem test_bne_V38 : after (placed 0x0010#16 [0xD0#8, 0x05#8]) State.pc = some 0x0012#16 := by decide
theorem test_bcs_V39 : after { placed 0x0020#16 [0xB0#8, 0x80#8] with carry := true } State.pc = some 0xFFA2#16 := by decide
theorem test_bcc_V41 : after (placed 0xFFFE#16 [0x90#8, 0x01#8]) State.pc = some 0x0001#16 := by decide
theorem test_bcc_V43 : after { placed 0x0003#16 [0x90#8, 0xFD#8] with carry := true } State.pc = some 0x0005#16 := by decide

/-- V48: reset from a halted state. -/
theorem test_reset_V48 : ({ State.reset with halt := true, a := 0x07#8, pc := 0x1234#16, carry := true } : State).hostReset = State.reset := by decide

/-- R36: the bytes of an image lie from address 0 on, and what follows keeps its contents. -/
theorem test_load_places_image : State.reset.loadProgram [0xA9#8, 0xFF#8, 0x00#8]
    = .loaded { State.reset with mem := [(0, 0xA9#8), (2, 0x00#8)] } := by decide

/-- A byte written as the fill byte leaves no cell. -/
theorem test_write_fill_removes : Cells.write 0xFF#8 [(0, 0xA9#8), (2, 0x00#8)] 2 0xFF#8 = [(0, 0xA9#8)] := by decide

/-! ### Witnesses: each statement's hypotheses met together, in each of its clauses -/

theorem witness_StepRunsDecodedInstruction : (placed 0xFFFF#16 [0xA9#8, 0x42#8]).halt = false
    ∧ decode [(placed 0xFFFF#16 [0xA9#8, 0x42#8]).memRead 0xFFFF#16, (placed 0xFFFF#16 [0xA9#8, 0x42#8]).memRead (0xFFFF#16 + 1#16)]
        = .ok (.lda 0x42#8, []) := by decide
theorem witness_HaltedStepWritesNothing : ({ State.reset with halt := true } : State).halt = true := by decide
theorem witness_EveryExecutingStepWritesIr : State.reset.halt = false := by decide
theorem witness_StepReturnsHalt : (∃ t, step (placed 0x0000#16 [0x00#8]) = .next t) ∧ (∃ t, step State.reset = .next t)
    ∧ ∃ t, step { State.reset with halt := true } = .next t := ⟨⟨_, rfl⟩, ⟨_, rfl⟩, ⟨_, rfl⟩⟩
theorem witness_NextPcTable : [0x00#8, 0xA9#8, 0xA2#8, 0xA0#8, 0xF0#8, 0xD0#8, 0xB0#8, 0x90#8, 0x01#8, 0xFF#8].all (fun op =>
    (placed 0xFFFF#16 [op, 0x7F#8]).halt == false && (placed 0xFFFF#16 [op, 0x7F#8]).memRead 0xFFFF#16 == op
      && (nextState (step (placed 0xFFFF#16 [op, 0x7F#8]))).isSome) = true := by decide
theorem witness_HaltResult : (placed 0x0123#16 [0x00#8]).opcodeAtPc 0x00#8
    ∧ ∃ t, exec .noop { State.reset with halt := true } = .next t := ⟨⟨rfl, rfl⟩, _, rfl⟩
theorem witness_NoOpResults : State.reset.opcodeAtPc 0xFF#8 ∧ (0x01#8 ∉ assignedOpcodes ∧ (placed 0x0000#16 [0x01#8]).opcodeAtPc 0x01#8)
    ∧ 0xFE#8 ∉ assignedOpcodes ∧ (placed 0xFFFF#16 [0xFE#8]).opcodeAtPc 0xFE#8 :=
  ⟨⟨rfl, rfl⟩, ⟨by decide, rfl, rfl⟩, by decide, rfl, rfl⟩
theorem witness_CarryInstructionResults : (placed 0x0000#16 [0x18#8]).opcodeAtPc 0x18#8 ∧ (placed 0x0000#16 [0x38#8]).opcodeAtPc 0x38#8
    ∧ ∃ t, exec .clc { State.reset with carry := true } = .next t ∧ t.carry = false := ⟨⟨rfl, rfl⟩, ⟨rfl, rfl⟩, _, rfl, rfl⟩
theorem witness_LoadResults : (placed 0xFFFF#16 [0xA9#8, 0x00#8]).bytesAtPc 0xA9#8 0x00#8
    ∧ (placed 0x0000#16 [0xA2#8, 0xFF#8]).bytesAtPc 0xA2#8 0xFF#8 ∧ (placed 0x0000#16 [0xA0#8, 0x80#8]).bytesAtPc 0xA0#8 0x80#8 :=
  ⟨⟨rfl, rfl, rfl⟩, ⟨rfl, rfl, rfl⟩, rfl, rfl, rfl⟩
theorem witness_TransferResults : [0xAA#8, 0xA8#8, 0x98#8, 0x8A#8, 0x9A#8, 0x91#8, 0xBA#8, 0x92#8].all (fun op =>
    (placed 0x0000#16 [op]).halt == false && (placed 0x0000#16 [op]).memRead 0x0000#16 == op) = true := by decide
theorem witness_IncrementResults : (placed 0x0000#16 [0xC8#8]).opcodeAtPc 0xC8#8 ∧ (placed 0x0000#16 [0xE8#8]).opcodeAtPc 0xE8#8 :=
  ⟨⟨rfl, rfl⟩, rfl, rfl⟩
theorem witness_DecrementResults : (placed 0x0000#16 [0x88#8]).opcodeAtPc 0x88#8 ∧ (placed 0x0000#16 [0xCA#8]).opcodeAtPc 0xCA#8 :=
  ⟨⟨rfl, rfl⟩, rfl, rfl⟩
theorem witness_BranchResults : (placed 0x0000#16 [0xF0#8, 0x80#8]).bytesAtPc 0xF0#8 0x80#8
    ∧ (placed 0xFFFF#16 [0xD0#8, 0x7F#8]).bytesAtPc 0xD0#8 0x7F#8 ∧ (placed 0x0000#16 [0xB0#8, 0x00#8]).bytesAtPc 0xB0#8 0x00#8
    ∧ (placed 0x0000#16 [0x90#8, 0xFE#8]).bytesAtPc 0x90#8 0xFE#8 :=
  ⟨⟨rfl, rfl, rfl⟩, ⟨rfl, rfl, rfl⟩, ⟨rfl, rfl, rfl⟩, rfl, rfl, rfl⟩
theorem witness_TakenBranchSignedReach : (Instr.bcc 0x80#8, !State.reset.carry)
      ∈ [(Instr.beq 0x80#8, State.reset.zero), (.bne 0x80#8, !State.reset.zero), (.bcs 0x80#8, State.reset.carry), (.bcc 0x80#8, !State.reset.carry)]
    ∧ (∃ t, exec (.bcc 0x80#8) State.reset = .next t) ∧ State.reset.zero = true := ⟨by decide, ⟨_, rfl⟩, rfl⟩
theorem witness_OperandAtTopOfMemoryWraps : [0xA9#8, 0xA2#8, 0xA0#8, 0xF0#8, 0xD0#8, 0xB0#8, 0x90#8].all (fun op =>
    (placed 0xFFFF#16 [op, 0x80#8]).halt == false && (placed 0xFFFF#16 [op, 0x80#8]).pc == 0xFFFF#16
      && (placed 0xFFFF#16 [op, 0x80#8]).memRead 0xFFFF#16 == op) = true := by decide
theorem witness_ControlAndCarryFrame : Instr.unassigned 0x01#8 ∈ [.halt, .noop, .unassigned 0x01#8, .clc, .sec]
    ∧ ∃ t, exec (.unassigned 0x01#8) State.reset = .next t := ⟨by decide, _, rfl⟩
theorem witness_LoadFrame : (Instr.ldy 0x00#8, Reg.y) ∈ [(Instr.lda 0x00#8, Reg.a), (.ldx 0x00#8, .x), (.ldy 0x00#8, .y)]
    ∧ ∃ t, exec (.ldy 0x00#8) State.reset = .next t := ⟨by decide, _, rfl⟩
theorem witness_TransferFrame : (Instr.txs, Reg.sp) ∈ [(Instr.tax, Reg.x), (.tay, .y), (.tya, .a), (.txa, .a), (.txs, .sp), (.tys, .sp), (.tsx, .x), (.tsy, .y)]
    ∧ ∃ t, exec .txs State.reset = .next t := ⟨by decide, _, rfl⟩
theorem witness_IncDecFrame : (Instr.inx, Reg.x) ∈ [(Instr.iny, Reg.y), (.inx, .x), (.dey, .y), (.dex, .x)]
    ∧ (∃ t, exec .inx State.reset = .next t) ∧ State.reset.reg .x ≠ 0xFF#8 := ⟨by decide, ⟨_, rfl⟩, by decide⟩
theorem witness_BranchFrame : Instr.bcs 0x80#8 ∈ [Instr.beq 0x80#8, .bne 0x80#8, .bcs 0x80#8, .bcc 0x80#8]
    ∧ ∃ t, exec (.bcs 0x80#8) State.reset = .next t := ⟨by decide, _, rfl⟩
theorem witness_RegisterWritersAndReaders : writesReg .a .tax = false ∧ (∃ t, exec .tax State.reset = .next t)
    ∧ writesReg .x .tax = true ∧ readsReg .x .tax = false ∧ readsReg .a .tax = true := ⟨rfl, ⟨_, rfl⟩, rfl, rfl, rfl⟩
theorem witness_ZeroWritersAndReaders : (∃ t, exec (.lda 0x00#8) State.reset = .next t) ∧ (∃ t, exec (.ldx 0xFF#8) State.reset = .next t)
    ∧ (∃ t, exec (.ldy 0x00#8) State.reset = .next t) ∧ (∃ t, exec .dex State.reset = .next t) ∧ isLoad .dex = false
    ∧ ∀ d, Instr.dex ≠ .beq d ∧ Instr.dex ≠ .bne d :=
  ⟨⟨_, rfl⟩, ⟨_, rfl⟩, ⟨_, rfl⟩, ⟨_, rfl⟩, rfl, fun _ => ⟨Instr.noConfusion, Instr.noConfusion⟩⟩
theorem witness_CarryWritersAndReaders : (∃ t, exec .inx { State.reset with x := 0xFF#8 } = .next t ∧ t.carry = true)
    ∧ ∀ d, Instr.inx ≠ .bcs d ∧ Instr.inx ≠ .bcc d := ⟨⟨_, rfl, rfl⟩, fun _ => ⟨Instr.noConfusion, Instr.noConfusion⟩⟩
theorem witness_HaltWrittenByHaltAndReset : (∃ t, exec .halt State.reset = .next t) ∧ (∃ t, State.reset.loadProgram [0x00#8] = .loaded t)
    ∧ ({ State.reset with halt := true } : State).halt = true := ⟨⟨_, rfl⟩, ⟨_, rfl⟩, rfl⟩
theorem witness_StepNeverWritesMemoryOrStack : ∃ t, step (placed 0x0000#16 [0x9A#8]) = .next t := ⟨_, rfl⟩
theorem witness_OnlyFetchedBytesMatter : (placed 0x0000#16 [0xA9#8, 0x05#8]).mem ≠ [(0, 0xA9#8), (1, 0x05#8), (7, 0x00#8)]
    ∧ (placed 0x0000#16 [0xA9#8, 0x05#8]).memRead 0x0000#16
        = State.memRead { placed 0x0000#16 [0xA9#8, 0x05#8] with mem := [(0, 0xA9#8), (1, 0x05#8), (7, 0x00#8)] } 0x0000#16
    ∧ (placed 0x0000#16 [0xA9#8, 0x05#8]).memRead 0x0001#16
        = State.memRead { placed 0x0000#16 [0xA9#8, 0x05#8] with mem := [(0, 0xA9#8), (1, 0x05#8), (7, 0x00#8)] } 0x0001#16 := by decide
theorem witness_IrAndStackNeverRead : State.reset.halt = false := by decide

/-- The run of a HALT byte alone ends after one step. -/
theorem witness_RunEndsAtHaltByte : (placed 0x0000#16 [0x00#8]).halt = false
    ∧ EndsAfter (placed 0x0000#16 [0x00#8]) 1 { placed 0x0000#16 [0x00#8] with halt := true } :=
  ⟨rfl, by omega, rfl, rfl, fun j h h' => by omega⟩

/-- The run over fill bytes alone meets no 0x00. -/
theorem witness_RunEndsAtHaltByte_never : State.reset.halt = false
    ∧ ∀ j u, Sys2Proof.core.run j State.reset = .next u → u.memRead u.pc ≠ 0x00#8 := by
  refine ⟨rfl, fun j u h => ?_⟩
  have hm : u.mem = [] := (run_keeps_arrays j h).1
  simp [State.memRead, hm, Cells.read, Config.fillByte]

theorem witness_NoOpStretchAdvancesPc : State.reset.halt = false
    ∧ ∀ k, k < 2 → isNoOpByte (State.reset.memRead (State.reset.pc + BitVec.ofNat 16 k)) = true := by decide
theorem witness_NoOpStretchThenHaltEndsRun : (placed 0xFFFE#16 [0xFF#8, 0x4C#8, 0x00#8]).halt = false
    ∧ (∀ k, k < 2 → isNoOpByte ((placed 0xFFFE#16 [0xFF#8, 0x4C#8, 0x00#8]).memRead (0xFFFE#16 + BitVec.ofNat 16 k)) = true)
    ∧ (placed 0xFFFE#16 [0xFF#8, 0x4C#8, 0x00#8]).memRead (0xFFFE#16 + BitVec.ofNat 16 2) = 0x00#8 := by decide
theorem witness_StepKeepsInvariant : Memory.wf (placed 0x0000#16 [0x00#8]).mem = true ∧ Stack.wf (placed 0x0000#16 [0x00#8]).stack = true
    ∧ (placed 0x0000#16 [0x00#8]).halt = false ∧ (nextState (step (placed 0x0000#16 [0x00#8]))).isSome = true := by decide
theorem witness_BootLeavesLaunchState : ([] : List Byte).length ≤ 65536 ∧ (List.replicate 65536 0x12#8).length ≤ 65536 := by
  simp only [List.length_replicate, List.length_nil]; omega
theorem witness_LoadProgramResult : Memory.wf State.reset.mem = true ∧ (List.replicate 65537 0x12#8).length > 65536
    ∧ (List.replicate 65536 0x12#8).length ≤ 65536 := by
  refine ⟨by decide, ?_, ?_⟩ <;> simp only [List.length_replicate] <;> omega
theorem witness_ReadByteWraps : (∃ t, exec (.lda 0x00#8) (placed 0xFFFF#16 [0xA9#8]) = .next t)
    ∧ (placed 0xFFFF#16 [0xF0#8, 0x80#8]).zero = true ∧ ∃ t, exec (.beq 0x80#8) (placed 0xFFFF#16 [0xF0#8, 0x80#8]) = .next t :=
  ⟨⟨_, rfl⟩, rfl, _, rfl⟩
theorem witness_TraceReadChangesNothing : ({ stage := .running, state := State.reset } : Session).stage = .running := rfl
theorem witness_DriverStepGivesHalted : ({ stage := .loaded, state := State.reset } : Session).stage = .loaded
    ∧ ({ stage := .ready, state := State.reset } : Session).stage ≠ .loaded
    ∧ ({ stage := .ready, state := State.reset } : Session).stage ≠ .running := by decide
theorem witness_DriverBreachesHaveNoMove : isNoOpByte 0xFF#8 = true ∧ isNoOpByte 0x01#8 = true ∧ isNoOpByte 0x00#8 = false
    ∧ (∃ z r, Session.apply (.loadProgram [0x00#8]) { stage := .ready, state := State.reset } = .moved z r)
    ∧ (HostOp.loadProgram [0x00#8] ≠ .reset ∧ HostOp.loadProgram [0x00#8] ≠ .step)
    ∧ (∃ z r, Session.apply .step { stage := .running, state := State.reset } = .moved z r)
    ∧ ∃ z r, Session.apply .reset { stage := .running, state := State.reset } = .moved z r :=
  ⟨by decide, by decide, by decide, ⟨_, _, rfl⟩, by decide, ⟨_, _, rfl⟩, ⟨_, _, rfl⟩⟩
theorem witness_ReachableSessionsInvariant : Reachable Session.start
    ∧ Reachable { stage := .resetOnly, state := State.created.hostReset } :=
  ⟨.start, .move (op := .reset) (r := .done) .start (by simp only [Session.apply, Session.reset, Session.start, Stage.afterReset])⟩
theorem witness_BootMovesReachLoadedSession : ([0x00#8] : List Byte).length ≤ 65536 := by decide
theorem witness_PlacedInstructionRunsNext : Memory.wf State.reset.mem = true ∧ decodeTableWord 16 0x05A9 = some (.lda 0x05#8)
    ∧ decodeTableWord 8 0x4C = some (.unassigned 0x4C#8) := by decide
theorem witness_DecodeOfEncode : (Instr.bne 0x80#8).wellFormed = true ∧ (Instr.unassigned 0x01#8).wellFormed = true := by decide
theorem witness_EncodeOfDecode : decode [0xA0#8, 0xFF#8, 0x00#8] = .ok (.ldy 0xFF#8, [0x00#8]) := by decide
theorem witness_LengthFromOpcodeByte : 0x90#8 ∈ [0xA9#8, 0xA2#8, 0xA0#8, 0xF0#8, 0xD0#8, 0xB0#8, 0x90#8]
    ∧ 0x91#8 ∉ [0xA9#8, 0xA2#8, 0xA0#8, 0xF0#8, 0xD0#8, 0xB0#8, 0x90#8] := by decide

end Sys2Proof.Tests
end

section
/-! SUPPORT. The frames of the instruction groups (spec/00_scope.md R11): what each shared operation leaves unchanged, which
shared operation an instruction of a group runs, and the frame statements that follow. -/

namespace Sys2Proof.Machine

/-- An instruction writes neither IR nor a byte of the two arrays, in the terms of the frame statements (spec/20_memory.md
R50, spec/10_state.md R33). -/
theorem sameStorage_of_exec {i : Instr} {s t : State} (h : exec i s = .next t) : SameStorage s t := by
  obtain ⟨hmem, hstack, hir⟩ := exec_keeps_arrays h
  exact ⟨hir, fun _ => by simp only [State.stackRead, hstack], fun _ => by simp only [State.memRead, hmem]⟩

/-- What a load leaves: every register but its own, and Carry and Halt (spec/42_loads.md R133). -/
theorem loadImmediate_frame {dst : Reg} {v : Byte} {s t : State} (h : loadImmediate dst v s = .next t) :
    (∀ r, r ≠ dst → t.reg r = s.reg r) ∧ t.carry = s.carry ∧ t.halt = s.halt := by
  rw [loadImmediate_next] at h
  cases h
  exact ⟨fun r hr => by simp [State.reg_setReg_other s v hr], by simp, by simp⟩

/-- What a transfer leaves: every register but its destination, and the flags (spec/43_transfers.md R148). -/
theorem transfer_frame {src dst : Reg} {s t : State} (h : transfer src dst s = .next t) :
    (∀ r, r ≠ dst → t.reg r = s.reg r) ∧ t.zero = s.zero ∧ t.carry = s.carry ∧ t.halt = s.halt := by
  rw [transfer_next] at h
  cases h
  exact ⟨fun r hr => by simp [State.reg_setReg_other s _ hr], by simp, by simp, by simp⟩

/-- What an increment leaves: every other register, Zero and Halt, and Carry too unless it wraps (spec/44_incdec.md R160,
R161). -/
theorem increment_frame {dst : Reg} {s t : State} (h : increment dst s = .next t) :
    (∀ r, r ≠ dst → t.reg r = s.reg r) ∧ t.zero = s.zero ∧ t.halt = s.halt
      ∧ (s.reg dst ≠ 0xFF#8 → t.carry = s.carry) := by
  rw [increment_next] at h
  cases h
  exact ⟨fun r hr => by simp [State.reg_setReg_other s _ hr], by simp, by simp, fun hne => by simp [hne]⟩

/-- What a decrement leaves: every other register, and the flags (spec/44_incdec.md R162, R163). -/
theorem decrement_frame {dst : Reg} {s t : State} (h : decrement dst s = .next t) :
    (∀ r, r ≠ dst → t.reg r = s.reg r) ∧ t.zero = s.zero ∧ t.halt = s.halt ∧ t.carry = s.carry := by
  rw [decrement_next] at h
  cases h
  exact ⟨fun r hr => by simp [State.reg_setReg_other s _ hr], by simp, by simp, by simp⟩

/-- What a branch leaves, taken or not: the registers and the flags (spec/45_branches.md R185). -/
theorem branchIf_frame {taken : Bool} {d : Byte} {s t : State} (h : branchIf taken d s = .next t) :
    (∀ r, t.reg r = s.reg r) ∧ t.zero = s.zero ∧ t.carry = s.carry ∧ t.halt = s.halt := by
  rw [branchIf_next] at h
  cases h
  simp

/-- The load an instruction of the group runs (spec/42_loads.md R130 to R132). -/
theorem exec_of_load {v : Byte} {i : Instr} {dst : Reg} (s : State)
    (hi : (i, dst) ∈ [(Instr.lda v, Reg.a), (.ldx v, .x), (.ldy v, .y)]) : exec i s = loadImmediate dst v s := by
  simp only [List.mem_cons, List.not_mem_nil, or_false, Prod.mk.injEq] at hi
  obtain ⟨rfl, rfl⟩ | ⟨rfl, rfl⟩ | ⟨rfl, rfl⟩ := hi <;> rfl

/-- Every instruction of the transfer group runs a transfer into its destination (spec/43_transfers.md R140 to R147). -/
theorem exec_of_transfer {i : Instr} {dst : Reg} (s : State)
    (hi : (i, dst) ∈ [(Instr.tax, Reg.x), (.tay, .y), (.tya, .a), (.txa, .a), (.txs, .sp), (.tys, .sp), (.tsx, .x),
      (.tsy, .y)]) : ∃ src, exec i s = transfer src dst s := by
  simp only [List.mem_cons, List.not_mem_nil, or_false, Prod.mk.injEq] at hi
  obtain ⟨rfl, rfl⟩ | ⟨rfl, rfl⟩ | ⟨rfl, rfl⟩ | ⟨rfl, rfl⟩ | ⟨rfl, rfl⟩ | ⟨rfl, rfl⟩ | ⟨rfl, rfl⟩ | ⟨rfl, rfl⟩ := hi <;>
    exact ⟨_, rfl⟩

/-- An instruction of the increment and decrement group is an increment, and neither DEY nor DEX, or a decrement of its
register (spec/44_incdec.md R160 to R163). -/
theorem exec_of_incDec {i : Instr} {dst : Reg} (s : State)
    (hi : (i, dst) ∈ [(Instr.iny, Reg.y), (.inx, .x), (.dey, .y), (.dex, .x)]) :
    (i ≠ .dey ∧ i ≠ .dex ∧ exec i s = increment dst s) ∨ exec i s = decrement dst s := by
  simp only [List.mem_cons, List.not_mem_nil, or_false, Prod.mk.injEq] at hi
  obtain ⟨rfl, rfl⟩ | ⟨rfl, rfl⟩ | ⟨rfl, rfl⟩ | ⟨rfl, rfl⟩ := hi
  · exact .inl ⟨by decide, by decide, rfl⟩
  · exact .inl ⟨by decide, by decide, rfl⟩
  · exact .inr rfl
  · exact .inr rfl

/-- Every instruction of the branch group is a conditional branch (spec/45_branches.md R181 to R184). -/
theorem exec_of_branch {d : Byte} {i : Instr} (s : State) (hi : i ∈ [Instr.beq d, .bne d, .bcs d, .bcc d]) :
    ∃ taken, exec i s = branchIf taken d s := by
  simp only [List.mem_cons, List.not_mem_nil, or_false] at hi
  obtain rfl | rfl | rfl | rfl := hi <;> exact ⟨_, rfl⟩

/-- What HALT, NOOP, the unassigned opcodes, CLC and SEC answer (spec/41_control_flag.md R110 to R114). -/
theorem exec_of_controlOrCarry {op : Byte} {i : Instr} {s t : State}
    (hi : i ∈ [.halt, .noop, .unassigned op, .clc, .sec]) (h : exec i s = .next t) :
    (i = .halt ∧ t = s.setHalt true) ∨ t = s.setPc (s.pc + 1#16)
      ∨ ((i = .clc ∨ i = .sec) ∧ ∃ b, t = (s.setCarry b).setPc (s.pc + 1#16)) := by
  simp only [List.mem_cons, List.not_mem_nil, or_false] at hi
  obtain rfl | rfl | rfl | rfl | rfl := hi <;> cases h
  · exact .inl ⟨rfl, rfl⟩
  · exact .inr (.inl rfl)
  · exact .inr (.inl rfl)
  · exact .inr (.inr ⟨.inl rfl, false, rfl⟩)
  · exact .inr (.inr ⟨.inr rfl, true, rfl⟩)

/-- Settles O19, from the three next states the group can answer. -/
theorem controlAndCarryFrame : Obligations.ControlAndCarryFrame := by
  intro op i s t hi h
  have hs := sameStorage_of_exec h
  obtain ⟨rfl, rfl⟩ | rfl | ⟨hc, b, rfl⟩ := exec_of_controlOrCarry hi h
  case inl => exact ⟨by simp, by simp, by simp, fun hne => absurd rfl hne, hs⟩
  case inr.inl => exact ⟨by simp, by simp, by simp, by simp, hs⟩
  case inr.inr => exact ⟨by simp, by simp, fun hclc hsec => absurd hc (not_or.mpr ⟨hclc, hsec⟩), by simp, hs⟩

/-- Settles O20: every load is `loadImmediate` into its register. -/
theorem loadFrame : Obligations.LoadFrame := by
  intro v i dst s t hi h
  obtain ⟨hreg, hcarry, hhalt⟩ := loadImmediate_frame ((exec_of_load s hi).symm.trans h)
  exact ⟨hreg, hcarry, hhalt, sameStorage_of_exec h⟩

/-- Settles O21: every transfer is `transfer` into its destination. -/
theorem transferFrame : Obligations.TransferFrame := by
  intro i dst s t hi h
  obtain ⟨src, hexec⟩ := exec_of_transfer s hi
  obtain ⟨hreg, hzero, hcarry, hhalt⟩ := transfer_frame (hexec.symm.trans h)
  exact ⟨hreg, hzero, hcarry, hhalt, sameStorage_of_exec h⟩

/-- Settles O22: an increment keeps Carry unless it wraps, a decrement always. -/
theorem incDecFrame : Obligations.IncDecFrame := by
  intro i dst s t hi h
  obtain ⟨hdey, hdex, hinc⟩ | hdec := exec_of_incDec s hi
  · obtain ⟨hreg, hzero, hhalt, hcarry⟩ := increment_frame (hinc.symm.trans h)
    exact ⟨hreg, hzero, hhalt, sameStorage_of_exec h, fun hc => hcarry ((hc.resolve_left hdey).resolve_left hdex)⟩
  · obtain ⟨hreg, hzero, hhalt, hcarry⟩ := decrement_frame (hdec.symm.trans h)
    exact ⟨hreg, hzero, hhalt, sameStorage_of_exec h, fun _ => hcarry⟩

/-- Settles O23: every branch is `branchIf` on a flag, which writes PC alone. -/
theorem branchFrame : Obligations.BranchFrame := by
  intro d i s t hi h
  obtain ⟨taken, hexec⟩ := exec_of_branch s hi
  obtain ⟨hreg, hzero, hcarry, hhalt⟩ := branchIf_frame (hexec.symm.trans h)
  exact ⟨hreg, hzero, hcarry, hhalt, sameStorage_of_exec h⟩

end Sys2Proof.Machine
end

section
/-! SUPPORT. What an instruction does, said once for all 24 of them: each has one of nine effects, given by the register or
flag it writes, and an effect is a function of the state. Which registers and flags an effect writes and reads is then
proved per effect (spec/10_state.md R22, R26, R29, R30). -/

namespace Sys2Proof.Machine

/-- What an instruction does to the state, without its mnemonic: the shared operation it runs, with its registers. -/
inductive Effect where
  | halt
  | skip
  | putCarry (b : Bool)
  | load (dst : Reg) (v : Byte)
  | transfer (src dst : Reg)
  | increment (r : Reg)
  | decrement (r : Reg)
  | branchOnZero (want : Bool) (d : Byte)
  | branchOnCarry (want : Bool) (d : Byte)

/-- The effect of each instruction (spec/40_engine.md R94). -/
def effectOf (i : Instr) : Effect :=
  match i with
  | .halt => .halt
  | .noop | .unassigned _ => .skip
  | .clc => .putCarry false
  | .sec => .putCarry true
  | .lda v => .load .a v
  | .ldx v => .load .x v
  | .ldy v => .load .y v
  | .tax => .transfer .a .x
  | .tay => .transfer .a .y
  | .tya => .transfer .y .a
  | .txa => .transfer .x .a
  | .txs => .transfer .x .sp
  | .tys => .transfer .y .sp
  | .tsx => .transfer .sp .x
  | .tsy => .transfer .sp .y
  | .iny => .increment .y
  | .inx => .increment .x
  | .dey => .decrement .y
  | .dex => .decrement .x
  | .beq d => .branchOnZero true d
  | .bne d => .branchOnZero false d
  | .bcs d => .branchOnCarry true d
  | .bcc d => .branchOnCarry false d

/-- The state an effect leaves. -/
def Effect.run (e : Effect) (s : State) : State :=
  match e with
  | .halt => s.setHalt true
  | .skip => s.setPc (s.pc + 1#16)
  | .putCarry b => (s.setCarry b).setPc (s.pc + 1#16)
  | .load dst v => ((s.setReg dst v).setZero (v == 0x00#8)).setPc (s.pc + 2#16)
  | .transfer src dst => (s.setReg dst (s.reg src)).setPc (s.pc + 1#16)
  | .increment r => ((s.setReg r (s.reg r + 1#8)).setCarry (s.carry || s.reg r == 0xFF#8)).setPc (s.pc + 1#16)
  | .decrement r => (s.setReg r (decSaturating (s.reg r))).setPc (s.pc + 1#16)
  | .branchOnZero want d => s.setPc (branchPc (s.zero == want) s.pc d)
  | .branchOnCarry want d => s.setPc (branchPc (s.carry == want) s.pc d)

/-- The register an effect writes. -/
def Effect.dst (e : Effect) : Option Reg :=
  match e with
  | .load dst _ => some dst
  | .transfer _ dst => some dst
  | .increment r | .decrement r => some r
  | .halt | .skip | .putCarry _ | .branchOnZero .. | .branchOnCarry .. => none

/-- The register an effect reads. -/
def Effect.src (e : Effect) : Option Reg :=
  match e with
  | .transfer src _ => some src
  | .increment r | .decrement r => some r
  | .halt | .skip | .putCarry _ | .load .. | .branchOnZero .. | .branchOnCarry .. => none

/-- The meaning of every instruction is the run of its effect: no instruction stops (spec/60_exceptions.md R200). -/
theorem exec_eq_run (i : Instr) (s : State) : exec i s = .next ((effectOf i).run s) := by
  cases i with
  | iny => exact increment_next .y s
  | inx => exact increment_next .x s
  | beq d | bne d | bcs d | bcc d =>
    simp [exec, execBeq, execBne, execBcs, execBcc, branchIf, effectOf, Effect.run]
  | _ => rfl

theorem exec_next_iff {i : Instr} {s t : State} : exec i s = .next t ↔ (effectOf i).run s = t := by
  rw [exec_eq_run, Host.Outcome.next.injEq]

/-- The model's list of writers is the effects' destinations (spec/10_state.md R22, R26). -/
theorem writesReg_eq (r : Reg) (i : Instr) : writesReg r i = decide ((effectOf i).dst = some r) := by
  cases i <;> cases r <;> rfl

/-- The model's list of readers is the effects' sources (R22, R26). -/
theorem readsReg_eq (r : Reg) (i : Instr) : readsReg r i = decide ((effectOf i).src = some r) := by
  cases i <;> cases r <;> rfl

theorem effectOf_load_iff {i : Instr} : (∃ dst v, effectOf i = .load dst v) ↔ isLoad i = true := by
  cases i <;> simp [effectOf, isLoad]

theorem effectOf_branchOnZero {i : Instr} {want : Bool} {d : Byte} (h : effectOf i = .branchOnZero want d) :
    i = .beq d ∨ i = .bne d := by
  cases i <;> simp_all [effectOf]

theorem effectOf_branchOnCarry {i : Instr} {want : Bool} {d : Byte} (h : effectOf i = .branchOnCarry want d) :
    i = .bcs d ∨ i = .bcc d := by
  cases i <;> simp_all [effectOf]

/-- No instruction copies a register to itself (spec/43_transfers.md R140 to R147). -/
theorem effectOf_ne_transfer_self (i : Instr) (r : Reg) : effectOf i ≠ .transfer r r := by
  cases i <;> cases r <;> nofun

/-! ### States field by field -/

theorem State.reg_setReg (s : State) (r q : Reg) (v : Byte) :
    (s.setReg r v).reg q = if q = r then v else s.reg q := by
  by_cases h : q = r
  · rw [if_pos h, h, State.reg_setReg_same]
  · rw [if_neg h, State.reg_setReg_other s v h]

@[simp] theorem State.setReg_setReg_same (s : State) (r : Reg) (v w : Byte) :
    (s.setReg r v).setReg r w = s.setReg r w := by cases r <;> rfl

/-- Two states are equal if every register, flag and array is (spec/10_state.md R20). -/
theorem State.eq_of_fields {s t : State} (hreg : ∀ r, s.reg r = t.reg r) (hpc : s.pc = t.pc) (hir : s.ir = t.ir)
    (hzero : s.zero = t.zero) (hcarry : s.carry = t.carry) (hhalt : s.halt = t.halt) (hstack : s.stack = t.stack)
    (hmem : s.mem = t.mem) : s = t := by
  obtain ⟨a, x, y, pc, sp, ir, zero, carry, halt, stack, mem⟩ := s
  obtain rfl : a = t.a := hreg .a
  obtain rfl : x = t.x := hreg .x
  obtain rfl : y = t.y := hreg .y
  obtain rfl : sp = t.sp := hreg .sp
  subst hpc hir hzero hcarry hhalt hstack hmem
  rfl

/-! ### The registers: an effect writes its destination and depends on its source -/

/-- A register that is no destination is left alone. -/
theorem Effect.run_reg_of_dst_ne {e : Effect} {r : Reg} (s : State) (h : e.dst ≠ some r) :
    (e.run s).reg r = s.reg r := by
  cases e with
  | load dst _ | transfer _ dst | increment dst | decrement dst =>
    have hne : r ≠ dst := fun he => h (congrArg some he.symm)
    simp [Effect.run, State.reg_setReg_other s _ hne]
  | _ => simp [Effect.run]

/-- A destination is changed in some state, unless the effect copies the register to itself. -/
theorem Effect.run_changes_dst {e : Effect} {r : Reg} (h : e.dst = some r) (hself : e ≠ .transfer r r) :
    ∃ s, (e.run s).reg r ≠ s.reg r := by
  cases e with
  | load dst v =>
    obtain rfl : dst = r := Option.some.inj h
    exact ⟨State.reset.setReg dst (v + 1#8), by simp [Effect.run]⟩
  | transfer src dst =>
    obtain rfl : dst = r := Option.some.inj h
    have hne : src ≠ dst := fun he => hself (congrArg (Effect.transfer · dst) he)
    exact ⟨(State.reset.setReg src 1#8).setReg dst 0#8, by simp [Effect.run, State.reg_setReg_other _ _ hne]⟩
  | increment q =>
    obtain rfl : q = r := Option.some.inj h
    exact ⟨State.reset, by simp [Effect.run]⟩
  | decrement q =>
    obtain rfl : q = r := Option.some.inj h
    exact ⟨State.reset.setReg q 1#8, by simp [Effect.run, decSaturating]⟩
  | halt | skip | putCarry _ | branchOnZero _ _ | branchOnCarry _ _ => cases h

/-- A destination that is not read first is overwritten: what it held has no part in the outcome. -/
theorem Effect.run_setReg_dst {e : Effect} {r : Reg} (s : State) (v : Byte) (hd : e.dst = some r)
    (hs : e.src ≠ some r) : e.run (s.setReg r v) = e.run s := by
  cases e with
  | load dst w =>
    obtain rfl : dst = r := Option.some.inj hd
    simp [Effect.run]
  | transfer src dst =>
    obtain rfl : dst = r := Option.some.inj hd
    have hne : src ≠ dst := fun he => hs (congrArg some he)
    simp [Effect.run, State.reg_setReg_other s v hne]
  | increment q | decrement q => exact absurd hd hs
  | halt | skip | putCarry _ | branchOnZero _ _ | branchOnCarry _ _ => cases hd

/-- A register that is neither read nor written rides along. -/
theorem Effect.run_setReg_other {e : Effect} {r : Reg} (s : State) (v : Byte) (hd : e.dst ≠ some r)
    (hs : e.src ≠ some r) : e.run (s.setReg r v) = (e.run s).setReg r v := by
  apply State.eq_of_fields
  · intro q
    by_cases hq : q = r
    · subst hq
      rw [State.reg_setReg_same, Effect.run_reg_of_dst_ne _ hd, State.reg_setReg_same]
    · rw [State.reg_setReg_other _ _ hq]
      cases e <;> simp_all [Effect.src, Effect.run, State.reg_setReg]
  all_goals cases e <;> simp_all [Effect.src, Effect.run, State.reg_setReg]

/-- What the destination is given depends on the source: 0 and 2 there lead to different values. -/
theorem Effect.run_depends_on_src {e : Effect} {r : Reg} (h : e.src = some r) :
    ∃ q s v, e.dst = some q ∧ (e.run (s.setReg r v)).reg q ≠ (e.run s).reg q := by
  cases e with
  | transfer src dst =>
    obtain rfl : src = r := Option.some.inj h
    exact ⟨dst, State.reset.setReg src 0#8, 2#8, rfl, by simp [Effect.run]⟩
  | increment q =>
    obtain rfl : q = r := Option.some.inj h
    exact ⟨q, State.reset.setReg q 0#8, 2#8, rfl, by simp [Effect.run]⟩
  | decrement q =>
    obtain rfl : q = r := Option.some.inj h
    exact ⟨q, State.reset.setReg q 0#8, 2#8, rfl, by simp [Effect.run, decSaturating]⟩
  | halt | skip | putCarry _ | load _ _ | branchOnZero _ _ | branchOnCarry _ _ => cases h

/-- Settles O24: the listed writers and readers are the effects' destinations and sources. -/
theorem registerWritersAndReaders : Obligations.RegisterWritersAndReaders := by
  refine ⟨fun r i => ?_, fun r i => ?_, fun s => ⟨rfl, rfl, rfl, rfl⟩⟩
  · rw [writesReg_eq, decide_eq_false_iff_not]
    constructor
    · intro hd s t h
      rw [← exec_next_iff.mp h]
      exact Effect.run_reg_of_dst_ne s hd
    · intro hkeep hd
      obtain ⟨s, hs⟩ := Effect.run_changes_dst hd (effectOf_ne_transfer_self i r)
      exact hs (hkeep s _ (exec_eq_run i s))
  · simp only [writesReg_eq, readsReg_eq, decide_eq_false_iff_not, decide_eq_true_eq, exec_eq_run, mapNext]
    constructor
    · intro hs s v
      split
      case isTrue hd => rw [Effect.run_setReg_dst s v hd hs]
      case isFalse hd => rw [Effect.run_setReg_other s v hd hs]
    · intro hsame hs
      obtain ⟨q, s, v, hq, hne⟩ := Effect.run_depends_on_src hs
      have h := hsame s v
      split at h
      case isTrue => exact hne (by rw [Host.Outcome.next.inj h])
      case isFalse hd =>
        have hqr : q ≠ r := fun he => hd (he ▸ hq)
        exact hne (by rw [Host.Outcome.next.inj h, State.reg_setReg_other _ _ hqr])

/-! ### The flags -/

/-- Zero after a load, in terms of the register it loads (spec/42_loads.md R133). -/
theorem Effect.run_load_zero_iff (dst : Reg) (v : Byte) (s : State) :
    ((Effect.load dst v).run s).zero = true ↔ ((Effect.load dst v).run s).reg dst = 0x00#8 := by
  simp [Effect.run]

/-- The loads alone write Zero (spec/10_state.md R29). -/
theorem Effect.run_zero_of_not_load {e : Effect} (s : State) (h : ¬ ∃ dst v, e = .load dst v) :
    (e.run s).zero = s.zero := by
  cases e with
  | load dst v => exact absurd ⟨dst, v, rfl⟩ h
  | _ => simp [Effect.run]

/-- The branches on Zero alone read it (R29). -/
theorem Effect.run_setZero {e : Effect} (s : State) (b : Bool) (h : ∀ want d, e ≠ .branchOnZero want d) :
    (e.run (s.setZero b)).setZero (e.run s).zero = e.run s := by
  cases e with
  | branchOnZero want d => exact absurd rfl (h want d)
  | _ => apply State.eq_of_fields <;> simp [Effect.run, State.reg_setReg]

/-- The branches on Carry alone read it, an increment's sticky Carry aside (R30). -/
theorem Effect.run_setCarry {e : Effect} (s : State) (b : Bool) (h : ∀ want d, e ≠ .branchOnCarry want d) :
    (e.run (s.setCarry b)).setCarry (e.run s).carry = e.run s := by
  cases e with
  | branchOnCarry want d => exact absurd rfl (h want d)
  | _ => apply State.eq_of_fields <;> simp [Effect.run, State.reg_setReg]

/-- Carry after an instruction (R30). -/
theorem exec_carry {i : Instr} {s t : State} (h : exec i s = .next t) : t.carry =
    if i = .clc then false
    else if i = .sec ∨ (i = .inx ∧ s.x = 0xFF#8) ∨ (i = .iny ∧ s.y = 0xFF#8) then true else s.carry := by
  rw [← exec_next_iff.mp h]
  cases i with
  | inx | iny =>
    rw [Bool.eq_iff_iff]
    simp [effectOf, Effect.run, State.reg, or_comm]
  | _ => simp [effectOf, Effect.run]

/-- Settles O25: a load's effect sets Zero from its register, and no other but a branch on Zero meets it. -/
theorem zeroWritersAndReaders : Obligations.ZeroWritersAndReaders := by
  refine ⟨fun v s t => ⟨fun h => ?_, fun h => ?_, fun h => ?_⟩, fun i s t h hl => ?_, fun i s t b hi h => ?_,
    fun s => State.hostReset_zero s⟩
  · exact exec_next_iff.mp h ▸ Effect.run_load_zero_iff .a v s
  · exact exec_next_iff.mp h ▸ Effect.run_load_zero_iff .x v s
  · exact exec_next_iff.mp h ▸ Effect.run_load_zero_iff .y v s
  · rw [← exec_next_iff.mp h]
    exact Effect.run_zero_of_not_load s (by simp [effectOf_load_iff, hl])
  · rw [← exec_next_iff.mp h]
    refine ⟨_, exec_eq_run i (s.setZero b), Effect.run_setZero s b fun want d he => ?_⟩
    exact (effectOf_branchOnZero he).elim (hi d).1 (hi d).2

/-- Settles O26: `exec_carry` for the writers, and no effect but a branch on Carry meets it. -/
theorem carryWritersAndReaders : Obligations.CarryWritersAndReaders := by
  refine ⟨fun i s t h => exec_carry h, fun i s t b hi h => ?_, fun s => State.hostReset_carry s⟩
  rw [← exec_next_iff.mp h]
  refine ⟨_, exec_eq_run i (s.setCarry b), Effect.run_setCarry s b fun want d he => ?_⟩
  exact (effectOf_branchOnCarry he).elim (hi d).1 (hi d).2

/-! ### A halted core -/

/-- What `load_program` answers when it loads: memory with the image in it, and nothing else written (R36). -/
theorem State.loadProgram_of_fits (s : State) {image : List Byte} (h : image.length ≤ 65536) :
    s.loadProgram image = .loaded { s with mem := Cells.writeAll Config.fillByte s.mem 0 image } := by
  exact if_neg (Nat.not_lt.mpr h)

/-- What `load_program` answers when the image is too large (R36). -/
theorem State.loadProgram_of_tooLarge (s : State) {image : List Byte} (h : image.length > 65536) :
    s.loadProgram image = .programTooLarge := if_pos h

/-- A load that succeeds writes memory alone (R36). -/
theorem State.eq_of_loadProgram {s t : State} {image : List Byte} (h : s.loadProgram image = .loaded t) :
    t = { s with mem := t.mem } := by
  by_cases hl : image.length ≤ 65536
  · rw [State.loadProgram_of_fits s hl] at h
    cases h
    rfl
  · rw [State.loadProgram_of_tooLarge s (Nat.not_le.mp hl)] at h
    cases h

/-- A halted core stays as it is for any number of steps (spec/10_state.md R31, spec/40_engine.md R91). -/
theorem run_of_halted (k : Nat) {s : State} (h : s.halt = true) : Sys2Proof.core.run k s = .next s := by
  induction k with
  | zero => rfl
  | succ k ih => rw [run_succ (t := s) (if_pos h), ih]

/-- Settles O27: `exec_halt_iff` for the instructions, and induction on the steps of a halted core. -/
theorem haltWrittenByHaltAndReset : Obligations.HaltWrittenByHaltAndReset := by
  refine ⟨fun i s t h => exec_halt_iff h, fun s b => State.fillMemory_halt s b, fun s t image h => ?_,
    fun s => ⟨State.hostReset_halt s, rfl⟩, fun k s h => run_of_halted k h⟩
  rw [State.eq_of_loadProgram h]

/-! ### IR and the stack array -/

/-- No effect reads the stack array (spec/10_state.md R33). -/
theorem Effect.run_withStack (e : Effect) (s : State) (c : Cells) :
    e.run { s with stack := c } = { e.run s with stack := c } := by
  cases e with
  | load dst v => cases dst <;> rfl
  | transfer src dst => cases src <;> cases dst <;> rfl
  | increment r | decrement r => cases r <;> rfl
  | _ => rfl

/-- Settles O30: the fetch reads neither, the step overwrites IR first, and no effect reads the stack array. -/
theorem irAndStackNeverRead : Obligations.IrAndStackNeverRead := by
  intro s v c h
  constructor
  · rw [step_of_running h, step_of_running (s := { s with ir := v }) h]
    rfl
  · rw [step_of_running h, step_of_running (s := { s with stack := c }) h, exec_eq_run, exec_eq_run]
    exact congrArg _ (Effect.run_withStack (effectOf s.fetchInstr) s.latchOpcode c)

end Sys2Proof.Machine
end

section
/-! SUPPORT. The host's side of the state (spec/10_state.md R35 to R38, R42): creation, fill, load, reads at integer addresses
and the trace. -/

namespace Sys2Proof.Machine

/-- Settles O41: a filled array reads as its byte at each of the 65536 indices. -/
theorem fillMemoryResult : Obligations.FillMemoryResult :=
  fun _ b => ⟨fun addr => Cells.read_filled b addr.isLt, rfl⟩

/-- Memory after a load: the image's byte where there is one, else the byte as before (R36). -/
theorem Cells.read_writeAll_image {m : Cells} {image : List Byte} (k : Nat) (hw : Memory.wf m = true)
    (hl : image.length ≤ 65536) :
    Cells.read Config.fillByte (Cells.writeAll Config.fillByte m 0 image) k
      = image.getD k (Cells.read Config.fillByte m k) := by
  have h := Cells.read_writeAll (k := 0) image k hw (by simpa [Config.memSize] using hl)
  rwa [Nat.zero_add, ← List.getD_eq_getElem?_getD] at h

/-- Settles O42, from the two answers of `load_program` and what a read gives after the image is written. -/
theorem loadProgramResult : Obligations.LoadProgramResult := by
  refine fun s image hw => ⟨fun hl => ?_, fun hl => ?_⟩
  · have hload := s.loadProgram_of_tooLarge hl
    exact ⟨hload, by simp only [Session.apply, Session.load, Stage.loadRefusal, hload]⟩
  · exact ⟨_, s.loadProgram_of_fits hl, rfl, fun addr => Cells.read_writeAll_image addr.toNat hw hl⟩

/-- The host reads at an integer what the engine reads at that integer modulo 2^16 (R37, spec/20_memory.md R51). -/
theorem State.readByte_eq_memRead (s : State) (a : Int) : s.readByte a = s.memRead (BitVec.ofInt 16 a) := by
  rw [State.readByte, State.memRead, BitVec.toNat_ofInt]
  rfl

/-- The engine's address `pc + n`, read by the host as an integer sum (R51). -/
theorem State.memRead_eq_readByte_add {s : State} {addr : Addr} {n : Int} (h : addr = s.pc + BitVec.ofInt 16 n) :
    s.memRead addr = s.readByte (s.pc.toNat + n) := by
  rw [State.readByte_eq_memRead, BitVec.ofInt_add, BitVec.ofInt_natCast, BitVec.ofNat_toNat, BitVec.setWidth_eq, h]

/-- A taken branch's target as an offset from PC (spec/45_branches.md R180). -/
theorem branchTarget_eq_add_ofInt (pc0 : Addr) (d : Byte) :
    branchTarget pc0 d = pc0 + BitVec.ofInt 16 (2 + d.toInt) := by
  rw [branchTarget, sext16_eq_signExtend, BitVec.signExtend, BitVec.ofInt_add, BitVec.add_assoc]
  rfl

/-- Settles O43: each address of the engine is PC plus an integer, and reads take integers modulo 2^16. -/
theorem readByteWraps : Obligations.ReadByteWraps := by
  refine fun s a => ⟨s.readByte_eq_memRead a, ?_, ?_, ?_, fun v t h => ?_, fun d t hz h => ?_, ?_⟩
  · simp [State.readByte, Config.memSize]
  · exact s.memRead_eq_readByte_add (n := 0) (by simp)
  · exact s.memRead_eq_readByte_add (n := 1) rfl
  · rw [← exec_next_iff.mp h]
    exact s.memRead_eq_readByte_add (n := 2) rfl
  · rw [← exec_next_iff.mp h, Int.add_assoc]
    refine s.memRead_eq_readByte_add (n := 2 + d.toInt) ?_
    rw [← branchTarget_eq_add_ofInt]
    simp [effectOf, Effect.run, branchPc, hz]
  · unfold step
    split
    · nofun
    · rw [exec_eq_run]
      nofun

/-- Settles O40: both arrays are filled with 0x00, and the stage created may not step. -/
theorem creationState : Obligations.CreationState := by
  obtain ⟨hmem, hstack⟩ := State.created_arrays
  refine ⟨fun r => by cases r <;> simp [State.reg], State.created_ir, State.created_pc, State.created_zero,
    State.created_carry, State.created_halt, fun i => ?_, fun addr => ?_, by rw [Session.start], ?_⟩
  · rw [State.stackRead, hstack]
    exact Cells.read_filled _ i.isLt
  · rw [State.memRead, hmem]
    exact Cells.read_filled _ addr.isLt
  · simp [Session.apply, Session.step, Session.start, Stage.maySteps]

/-- Settles O44: a trace read moves to the same session in the running stage. -/
theorem traceReadChangesNothing : Obligations.TraceReadChangesNothing :=
  fun _ h => if_pos h

end Sys2Proof.Machine
end

section
/-! SUPPORT. What a step takes from memory (spec/20_memory.md R50, R54, R61): the opcode byte and, for a 2-byte opcode, the
byte after it. No effect reads memory, no step writes it, and the operand address wraps at the top. -/

namespace Sys2Proof.Machine

/-! ### The fetched bytes and no other -/

/-- The seven 2-byte opcodes, listed (spec/30_encoding.md R74). -/
theorem opcodeLength_eq_two_iff (op : Byte) :
    opcodeLength op = 2 ↔ op ∈ [0xA9#8, 0xA2#8, 0xA0#8, 0xF0#8, 0xD0#8, 0xB0#8, 0x90#8] := by
  rw [opcodeLength, ← twoByteOpcodes, ← List.contains_iff_mem]
  simp

/-- Two states with the same opcode byte, and the same operand byte where the opcode takes one, fetch the same
instruction (spec/40_engine.md R92, R93). -/
theorem State.fetchInstr_congr {s t : State} (hop : t.fetchOpcode = s.fetchOpcode)
    (hopnd : opcodeLength s.fetchOpcode = 2 → t.fetchOperand = s.fetchOperand) : t.fetchInstr = s.fetchInstr := by
  rw [State.fetchInstr, State.fetchInstr, hop]
  split
  case isTrue hl => rw [hopnd hl]
  case isFalse => rfl

/-- No effect reads memory (spec/20_memory.md R50). -/
theorem Effect.run_withMem (e : Effect) (s : State) (m : Cells) :
    e.run { s with mem := m } = { e.run s with mem := m } := by
  cases e with
  | load dst v => cases dst <;> rfl
  | transfer src dst => cases src <;> cases dst <;> rfl
  | increment r | decrement r => cases r <;> rfl
  | _ => rfl

/-- A step of a halted machine (spec/40_engine.md R91). -/
theorem step_of_halted {s : State} (h : s.halt = true) : step s = .next s := if_pos h

/-- Settles O29: the same bytes fetch the same instruction, and its effect carries the replaced memory along. -/
theorem onlyFetchedBytesMatter : Obligations.OnlyFetchedBytesMatter := by
  intro s m hop hopnd
  obtain hh | hh := Bool.eq_false_or_eq_true s.halt
  · rw [step_of_halted hh, step_of_halted (s := { s with mem := m }) hh]
    rfl
  · have hinstr : State.fetchInstr { s with mem := m } = s.fetchInstr :=
      State.fetchInstr_congr hop.symm fun hl => (hopnd ((opcodeLength_eq_two_iff _).mp hl)).symm
    have hlatch : State.latchOpcode { s with mem := m } = { s.latchOpcode with mem := m } :=
      congrArg (State.setIr { s with mem := m }) hop.symm
    rw [step_of_running hh, step_of_running (s := { s with mem := m }) hh, hinstr, hlatch, exec_eq_run, exec_eq_run]
    exact congrArg _ (Effect.run_withMem (effectOf s.fetchInstr) s.latchOpcode m)

/-- Settles O28: the arrays are the same, so every read of them is. -/
theorem stepNeverWritesMemoryOrStack : Obligations.StepNeverWritesMemoryOrStack := by
  intro s t h
  obtain ⟨hmem, hstack⟩ := step_keeps_arrays h
  exact ⟨hmem, hstack, fun _ => by simp only [State.memRead, hmem], fun _ => by simp only [State.stackRead, hstack]⟩

/-! ### A 2-byte instruction, and its operand at the top of memory -/

/-- The step of a 2-byte instruction: its effect with IR written (spec/40_engine.md R90, R92, R93). -/
theorem step_of_bytesAtPc {s : State} {op v : Byte} (h : s.bytesAtPc op v) (hl : opcodeLength op = 2) :
    step s = .next ((effectOf (instrOf op v)).run (s.setIr op)) := by
  obtain ⟨hhalt, hop, hopnd⟩ := h
  rw [step_of_running hhalt, State.fetchInstr_two hop hopnd hl, State.latchOpcode_eq, State.fetchOpcode, hop, exec_eq_run]

/-- The operand of an instruction at 0xFFFF is the byte at 0x0000 (spec/20_memory.md R54). -/
theorem State.bytesAtPc_top {s : State} {op : Byte} (hh : s.halt = false) (hpc : s.pc = 0xFFFF#16)
    (hop : s.memRead 0xFFFF#16 = op) : s.bytesAtPc op (s.memRead 0x0000#16) :=
  ⟨hh, hpc ▸ hop, hpc ▸ rfl⟩

/-- All a step does with a load at 0xFFFF. -/
theorem step_load_top {s : State} {op v : Byte} {dst : Reg} (h : s.bytesAtPc op v) (hpc : s.pc = 0xFFFF#16)
    (hl : opcodeLength op = 2) (he : effectOf (instrOf op v) = .load dst v) :
    step s = .next ((((s.setIr op).setReg dst v).setZero (v == 0x00#8)).setPc 0x0001#16) := by
  rw [step_of_bytesAtPc h hl, he, Effect.run, State.setIr_pc, hpc]
  rfl

/-- The two places a branch at 0xFFFF can go (spec/45_branches.md R180). -/
theorem branchPc_top (taken : Bool) (d : Byte) :
    branchPc taken 0xFFFF#16 d = if taken = true then 0x0001#16 + d.signExtend 16 else 0x0001#16 := by
  rw [branchPc, branchTarget, sext16_eq_signExtend]
  rfl

/-- All a step does with a branch on Zero at 0xFFFF. -/
theorem step_branchOnZero_top {s : State} {op v : Byte} {want : Bool} (h : s.bytesAtPc op v) (hpc : s.pc = 0xFFFF#16)
    (hl : opcodeLength op = 2) (he : effectOf (instrOf op v) = .branchOnZero want v) :
    step s = .next ((s.setIr op).setPc (if s.zero = want then 0x0001#16 + v.signExtend 16 else 0x0001#16)) := by
  rw [step_of_bytesAtPc h hl, he, Effect.run, State.setIr_pc, hpc, branchPc_top]
  simp

/-- All a step does with a branch on Carry at 0xFFFF. -/
theorem step_branchOnCarry_top {s : State} {op v : Byte} {want : Bool} (h : s.bytesAtPc op v) (hpc : s.pc = 0xFFFF#16)
    (hl : opcodeLength op = 2) (he : effectOf (instrOf op v) = .branchOnCarry want v) :
    step s = .next ((s.setIr op).setPc (if s.carry = want then 0x0001#16 + v.signExtend 16 else 0x0001#16)) := by
  rw [step_of_bytesAtPc h hl, he, Effect.run, State.setIr_pc, hpc, branchPc_top]
  simp

/-- Settles O18: three loads, two branches on Zero and two on Carry, each with its operand at 0x0000. -/
theorem operandAtTopOfMemoryWraps : Obligations.OperandAtTopOfMemoryWraps := by
  intro s hh hpc v
  have hbytes {op : Byte} (hop : s.memRead 0xFFFF#16 = op) : s.bytesAtPc op v := State.bytesAtPc_top hh hpc hop
  refine ⟨fun h => ?lda, fun h => ?ldx, fun h => ?ldy, fun h => ?beq, fun h => ?bne, fun h => ?bcs, fun h => ?bcc⟩
  case lda => exact step_load_top (dst := .a) (hbytes h) hpc rfl rfl
  case ldx => exact step_load_top (dst := .x) (hbytes h) hpc rfl rfl
  case ldy => exact step_load_top (dst := .y) (hbytes h) hpc rfl rfl
  case beq => exact step_branchOnZero_top (hbytes h) hpc rfl rfl
  case bne => exact step_branchOnZero_top (hbytes h) hpc rfl rfl
  case bcs => exact step_branchOnCarry_top (hbytes h) hpc rfl rfl
  case bcc => exact step_branchOnCarry_top (hbytes h) hpc rfl rfl

end Sys2Proof.Machine
end

section
/-! SUPPORT. The decoder and the encoder against each other (spec/30_encoding.md R70 to R79, R81): what decoding gives where
the list holds the whole instruction and where it is cut short, and that the instruction an opcode byte selects encodes to
the bytes it was read from. -/

namespace Sys2Proof

variable {op : Byte}

/-! ### Decoding, by the length of the opcode byte -/

/-- An opcode without an operand: the bytes after it are the rest (R71). -/
theorem decode_of_length_ne_two (rest : List Byte) (h : opcodeLength op ≠ 2) :
    decode (op :: rest) = .ok (instrOf op 0x00#8, rest) := if_neg h

/-- An opcode with its operand: the bytes after both are the rest (R72, R73). -/
theorem decode_of_length_two (opnd : Byte) (rest : List Byte) (h : opcodeLength op = 2) :
    decode (op :: opnd :: rest) = .ok (instrOf op opnd, rest) := if_pos h

/-- An opcode whose operand is missing (log entry 4). -/
theorem decode_of_operand_missing (h : opcodeLength op = 2) : decode [op] = .error (.missingOperand op) := if_pos h

/-- Settles O52: the seven opcodes are those of length 2, and the length picks the branch of the decoder. -/
theorem lengthFromOpcodeByte : Obligations.LengthFromOpcodeByte := by
  intro op opnd rest
  rw [← Machine.opcodeLength_eq_two_iff]
  exact ⟨fun hl => ⟨_, decode_of_length_two opnd rest hl⟩, fun hl => ⟨_, fun tail => decode_of_length_ne_two tail hl⟩⟩

/-- Settles O53, by the shape of the list and the length of its first byte. -/
theorem decodeRefusesOnlyTruncatedBytes : Obligations.DecodeRefusesOnlyTruncatedBytes := by
  intro bytes e
  match bytes with
  | [] => simp [decode, eq_comm]
  | op :: rest =>
    by_cases hl : opcodeLength op = 2
    · match rest with
      | [] => simp [decode_of_operand_missing hl, hl, eq_comm]
      | opnd :: rest => simp [decode_of_length_two opnd rest hl]
    · simp [decode_of_length_ne_two rest hl, hl]

/-! ### The instruction an opcode byte selects -/

/-- A byte of the table selects the instruction of its row, which encodes to it, with the operand where the opcode takes
one (R71 to R73, R77). -/
theorem instrOf_assigned (opnd : Byte) (h : isAssigned op = true) :
    (instrOf op opnd).wellFormed = true
      ∧ encode (instrOf op opnd) = if opcodeLength op = 2 then [op, opnd] else [op] := by
  unfold instrOf
  split
  case h_24 => simp_all [isAssigned, assignedOpcodes]
  all_goals exact ⟨rfl, rfl⟩

/-- Every byte selects a well-formed instruction (R79, R81, R112). -/
theorem instrOf_wellFormed (op opnd : Byte) : (instrOf op opnd).wellFormed = true := by
  cases h : isAssigned op with
  | true => exact (instrOf_assigned opnd h).left
  | false => simp [instrOf_unassigned opnd h, Instr.wellFormed, h]

/-- Every byte selects an instruction that encodes to it, with the operand where the opcode takes one. -/
theorem encode_instrOf (op opnd : Byte) :
    encode (instrOf op opnd) = if opcodeLength op = 2 then [op, opnd] else [op] := by
  cases h : isAssigned op with
  | true => exact (instrOf_assigned opnd h).right
  | false =>
    rw [instrOf_unassigned opnd h, opcodeLength_unassigned h]
    rfl

/-- A list that decodes is the encoding of the instruction some opcode byte selects, followed by the rest. -/
theorem decode_eq_ok {bytes rest : List Byte} {i : Instr} (h : decode bytes = .ok (i, rest)) :
    ∃ op opnd, i = instrOf op opnd ∧ bytes = encode i ++ rest := by
  match bytes with
  | [] => cases h
  | op :: tail =>
    by_cases hl : opcodeLength op = 2
    · match tail with
      | [] => cases (decode_of_operand_missing hl).symm.trans h
      | opnd :: tail =>
        cases (decode_of_length_two opnd tail hl).symm.trans h
        exact ⟨op, opnd, rfl, by rw [encode_instrOf, if_pos hl]; rfl⟩
    · cases (decode_of_length_ne_two tail hl).symm.trans h
      exact ⟨op, 0x00#8, rfl, by rw [encode_instrOf, if_neg hl]; rfl⟩

/-- Settles O50, by cases on the instruction: an unassigned byte is outside the table, where the decoder's default arm
gives it back, and every other opcode is a row of the table. -/
theorem decodeOfEncode : Obligations.DecodeOfEncode := by
  intro i rest hw
  cases i with
  | unassigned op =>
    have hop : isAssigned op = false := by simpa [Instr.wellFormed] using hw
    have hl : opcodeLength op ≠ 2 := by simp [opcodeLength_unassigned hop]
    calc decode (op :: rest) = .ok (instrOf op 0x00#8, rest) := decode_of_length_ne_two rest hl
      _ = .ok (.unassigned op, rest) := by rw [instrOf_unassigned _ hop]
  | _ => rfl

/-- Settles O51: a decoded instruction is one an opcode byte selects, which is well-formed. -/
theorem encodeOfDecode : Obligations.EncodeOfDecode := by
  intro bytes rest i h
  obtain ⟨op, opnd, rfl, hbytes⟩ := decode_eq_ok h
  exact ⟨instrOf_wellFormed op opnd, hbytes.symm⟩

end Sys2Proof
end

section
/-! SUPPORT. The step as a function of the state (spec/40_engine.md R90, R91), since it always answers, and a run as its
iterate. What a step can do is said once here; what a run does is then an induction on the number of steps. -/

namespace Sys2Proof.Machine

/-- The state a step leaves. -/
def State.afterStep (s : State) : State :=
  if s.halt = true then s else (effectOf s.fetchInstr).run s.latchOpcode

theorem State.afterStep_of_halted {s : State} (h : s.halt = true) : s.afterStep = s := if_pos h

theorem State.afterStep_of_running {s : State} (h : s.halt = false) :
    s.afterStep = (effectOf s.fetchInstr).run s.latchOpcode := if_neg (by simp [h])

/-- Every step answers (spec/60_exceptions.md R200). -/
theorem step_eq_afterStep (s : State) : step s = .next s.afterStep := by
  cases h : s.halt with
  | true => rw [step_of_halted h, State.afterStep_of_halted h]
  | false => rw [step_of_running h, State.afterStep_of_running h, exec_eq_run]

theorem step_next_iff {s t : State} : step s = .next t ↔ s.afterStep = t := by
  rw [step_eq_afterStep, Host.Outcome.next.injEq]

/-- A run of `k` steps is the `k`-th iterate of the step. -/
theorem run_eq_iterate (k : Nat) (s : State) : Sys2Proof.core.run k s = .next (State.afterStep^[k] s) := by
  induction k generalizing s with
  | zero => rfl
  | succ k ih => rw [run_succ (step_eq_afterStep s), ih, Function.iterate_succ_apply]

theorem run_next_iff {k : Nat} {s t : State} : Sys2Proof.core.run k s = .next t ↔ State.afterStep^[k] s = t where
  mp h := by
    cases (run_eq_iterate k s).symm.trans h
    rfl
  mpr h := h ▸ run_eq_iterate k s

/-! ### One step -/

/-- An executing step leaves the opcode byte in IR: it is written first, and no instruction writes IR (R92). -/
theorem State.afterStep_ir {s : State} (h : s.halt = false) : s.afterStep.ir = s.memRead s.pc := by
  have hexec := (step_of_running h).symm.trans (step_eq_afterStep s)
  obtain ⟨_, _, hir⟩ := exec_keeps_arrays hexec
  exact hir

/-- Halt after a step (R96): HALT is the instruction of byte 0x00 and of no other. -/
theorem State.afterStep_halt_iff (s : State) : s.afterStep.halt = true ↔ s.halt = true ∨ s.memRead s.pc = 0x00#8 := by
  cases h : s.halt with
  | true => simp [State.afterStep_of_halted h, h]
  | false =>
    have hexec := (step_of_running h).symm.trans (step_eq_afterStep s)
    rw [exec_halt_iff hexec, State.fetchInstr_eq_halt, State.latchOpcode_eq, State.setIr_halt, h]
    rfl

/-- All a step does at a HALT byte (spec/41_control_flag.md R110). -/
theorem State.afterStep_of_haltByte {s : State} (h : s.halt = false) (hb : s.memRead s.pc = 0x00#8) :
    s.afterStep = { s with ir := 0x00#8, halt := true } := by
  rw [State.afterStep_of_running h, s.fetchInstr_eq_halt.mpr hb, State.latchOpcode_eq, State.fetchOpcode, hb]
  rfl

/-- A no-op byte selects an instruction that only advances PC (R111, R112). -/
theorem effectOf_instrOf_noOpByte {op : Byte} (opnd : Byte) (h : isNoOpByte op = true) :
    effectOf (instrOf op opnd) = .skip := by
  rw [isNoOpByte, Bool.or_eq_true, beq_iff_eq, Bool.not_eq_true'] at h
  obtain rfl | h := h
  · rfl
  · rw [instrOf_unassigned opnd h]
    rfl

/-- All a step does at a no-op byte (R111, R112). -/
theorem State.afterStep_of_noOpByte {s : State} (h : s.halt = false) (hb : isNoOpByte (s.memRead s.pc) = true) :
    s.afterStep = { s with ir := s.memRead s.pc, pc := s.pc + 1#16 } := by
  have he : effectOf s.fetchInstr = .skip := by
    unfold State.fetchInstr
    split <;> exact effectOf_instrOf_noOpByte _ hb
  rw [State.afterStep_of_running h, he]
  rfl

/-- Settles O3: a halted step answers the state itself. -/
theorem haltedStepWritesNothing : Obligations.HaltedStepWritesNothing :=
  fun s h => ⟨s, step_of_halted h, rfl, h⟩

/-- Settles O4: the step latches IR, and no instruction writes it afterwards. -/
theorem everyExecutingStepWritesIr : Obligations.EveryExecutingStepWritesIr :=
  fun s h => ⟨⟨s.fetchInstr, step_of_running h⟩, s.afterStep, step_eq_afterStep s, State.afterStep_ir h⟩

/-- Settles O6: the Boolean is Halt of the state after the step. -/
theorem stepReturnsHalt : Obligations.StepReturnsHalt := by
  intro s t h
  rw [← step_next_iff.mp h, State.afterStep_halt_iff]

/-- Settles O35: no step writes an array, and the one that sets Halt executes the byte 0x00 at PC and stays there. -/
theorem stepKeepsInvariant : Obligations.StepKeepsInvariant := by
  rintro s t ⟨hmem, hstack, hhalted⟩ hstep
  obtain ⟨hm, hs⟩ := step_keeps_arrays hstep
  refine ⟨hm ▸ hmem, hs ▸ hstack, fun ht => ?_⟩
  obtain rfl := step_next_iff.mp hstep
  cases h : s.halt with
  | true =>
    rw [State.afterStep_of_halted h]
    exact hhalted h
  | false =>
    have hb : s.memRead s.pc = 0x00#8 := by simpa [h] using s.afterStep_halt_iff.mp ht
    rw [State.afterStep_of_haltByte h hb]
    exact beq_iff_eq.mpr hb

/-! ### Runs and Halt -/

/-- A run has halted by its `k`-th step exactly if it began halted or met a HALT byte before that step (R97, R98). -/
theorem State.iterate_afterStep_halt_iff (k : Nat) (s : State) : (State.afterStep^[k] s).halt = true ↔
    s.halt = true ∨ ∃ j < k, (State.afterStep^[j] s).memRead (State.afterStep^[j] s).pc = 0x00#8 := by
  induction k with
  | zero => simp
  | succ k ih =>
    rw [Function.iterate_succ_apply', State.afterStep_halt_iff, ih, or_assoc, Nat.exists_lt_succ_right]

/-- Settles O31: a run is an iterate, which writes no array, and halts by the rule above. -/
theorem runsNeverStopShort : Obligations.RunsNeverStopShort := by
  intro k s
  obtain ⟨hmem, hstack⟩ := run_keeps_arrays k (run_eq_iterate k s)
  refine ⟨_, run_eq_iterate k s, hmem, hstack, (State.iterate_afterStep_halt_iff k s).trans (or_congr_right ?_)⟩
  constructor
  · rintro ⟨j, hj, hb⟩
    exact ⟨j, _, hj, run_eq_iterate j s, hb⟩
  · rintro ⟨j, u, hj, hu, hb⟩
    exact ⟨j, hj, run_next_iff.mp hu ▸ hb⟩

/-- The state before the last step of a run that ends has Halt false. -/
theorem EndsAfter.halt_before {s t : State} {k : Nat} (hs : s.halt = false) (h : EndsAfter s (k + 1) t) :
    (State.afterStep^[k] s).halt = false := by
  obtain ⟨_, _, _, hfirst⟩ := h
  cases k with
  | zero => exact hs
  | succ k => exact hfirst (k + 1) (Nat.succ_pos k) (Nat.lt_succ_self _) _ (run_eq_iterate _ s)

/-- Settles O32: the last step is one that sets Halt, so it executes a HALT byte. -/
theorem runEndsAtHaltByte : Obligations.RunEndsAtHaltByte := by
  refine ⟨fun s t k hs hend => ?ends, fun s hs hno j => ?never, fun s j => ⟨_, run_eq_iterate j s⟩⟩
  case ends =>
    obtain ⟨k, rfl⟩ := Nat.exists_eq_succ_of_ne_zero hend.1.ne'
    have hbefore := hend.halt_before hs
    obtain ⟨_, hrun, ht, _⟩ := hend
    rw [run_next_iff, Function.iterate_succ_apply'] at hrun
    subst hrun
    have hb := ((State.afterStep_halt_iff _).mp ht).resolve_left (by simp [hbefore])
    rw [State.afterStep_of_haltByte hbefore hb]
    exact ⟨rfl, rfl, hb, _, run_eq_iterate k s, hbefore, hb, rfl⟩
  case never =>
    refine ⟨_, run_eq_iterate j s, Bool.eq_false_iff.mpr fun hj => ?_⟩
    obtain h | ⟨i, _, hi⟩ := (State.iterate_afterStep_halt_iff j s).mp hj
    · simp [hs] at h
    · exact hno i _ (run_eq_iterate i s) hi

/-! ### A stretch of no-op bytes -/

/-- Settles O33, by induction on the number of no-op bytes: each step advances PC past one. -/
theorem noOpStretchAdvancesPc : Obligations.NoOpStretchAdvancesPc := by
  intro n s hs hb
  rw [run_next_iff]
  induction n with
  | zero => simp
  | succ n ih =>
    rw [Function.iterate_succ_apply', ih fun k hk => hb k (Nat.lt_succ_of_lt hk), State.afterStep_of_noOpByte]
    · simp [State.memRead, BitVec.add_assoc, BitVec.ofNat_add]
    · exact hs
    · exact hb n (Nat.lt_succ_self n)

/-- Settles O34: the stretch ends at the HALT byte, and no state on the way is halted. -/
theorem noOpStretchThenHaltEndsRun : Obligations.NoOpStretchThenHaltEndsRun := by
  intro n s hs hb hhalt
  have hstretch (j : Nat) (hj : j ≤ n) := noOpStretchAdvancesPc j s hs fun k hk => hb k (Nat.lt_of_lt_of_le hk hj)
  refine ⟨Nat.succ_pos n, ?_, rfl, fun j _ hj u hu => ?_⟩
  · rw [run_next_iff, Function.iterate_succ_apply', run_next_iff.mp (hstretch n le_rfl),
      State.afterStep_of_haltByte]
    · exact hs
    · exact hhalt
  · rw [hstretch j (Nat.lt_succ_iff.mp hj)] at hu
    cases hu
    exact hs

end Sys2Proof.Machine
end

section
/-! SUPPORT. The next PC of an executing step (spec/40_engine.md R95), from the opcode byte and the byte after it. -/

namespace Sys2Proof.Machine

/-- A well-formed instruction is the one its encoding decodes to, so no other has that encoding. -/
theorem eq_of_encode_eq {i j : Instr} (hi : i.wellFormed = true) (hj : j.wellFormed = true)
    (h : encode i = encode j) : i = j := by
  have hdec := decodeOfEncode i [] hi
  rw [h, decodeOfEncode j [] hj] at hdec
  cases hdec
  rfl

/-- The byte after a 1-byte opcode has no part in the instruction (spec/30_encoding.md R71). -/
theorem instrOf_of_length_ne_two {op : Byte} (opnd opnd' : Byte) (h : opcodeLength op ≠ 2) :
    instrOf op opnd = instrOf op opnd' :=
  eq_of_encode_eq (instrOf_wellFormed op opnd) (instrOf_wellFormed op opnd') (by simp [encode_instrOf, h])

/-- The fetched instruction is the one the opcode byte selects with the byte after it. -/
theorem State.fetchInstr_eq_instrOf (s : State) : s.fetchInstr = instrOf (s.memRead s.pc) (s.memRead (s.pc + 1#16)) := by
  unfold State.fetchInstr
  split
  case isTrue => rfl
  case isFalse hl => exact instrOf_of_length_ne_two _ _ hl

/-- Settles O7, by the rows of the opcode table; the default arm is a byte equal to none of them. -/
theorem nextPcTable : Obligations.NextPcTable := by
  intro s t hs hstep op target
  rw [← step_next_iff.mp hstep, State.afterStep_of_running hs, State.fetchInstr_eq_instrOf]
  change ((effectOf (instrOf op _)).run (s.setIr op)).pc = _
  generalize op = op
  unfold instrOf
  split
  case h_24 => simp_all [effectOf, Effect.run]
  all_goals simp [effectOf, Effect.run, branchPc, branchTarget, sext16_eq_signExtend, target]

end Sys2Proof.Machine
end

section
/-! SUPPORT. An instruction placed at PC (log entries 1 and 11): what the two bytes written there read as, and that the next
step fetches them. -/

namespace Sys2Proof.Machine

/-- Placing two bytes is two writes and Halt made false. -/
theorem State.placeAtPc_two (s : State) (op opnd : Byte) :
    s.placeAtPc [op, opnd] = ((s.memWrite s.pc op).memWrite (s.pc + 1#16) opnd).setHalt false := rfl

/-- A fetch reads back the two bytes placed at PC; the second write does not touch the first, for PC + 1 is not PC. -/
theorem State.fetchBytes_placeAtPc {s : State} (op opnd : Byte) (hw : Memory.wf s.mem = true) :
    (s.placeAtPc [op, opnd]).fetchBytes = [op, opnd] := by
  have hne : s.pc ≠ s.pc + 1#16 := by simp
  have hop : (s.placeAtPc [op, opnd]).fetchOpcode = op :=
    (State.memRead_memWrite_other _ opnd hne).trans (State.memRead_memWrite_same s.pc op hw)
  have hopnd : (s.placeAtPc [op, opnd]).fetchOperand = opnd :=
    State.memRead_memWrite_same _ opnd (State.memWrite_keeps_wf s.pc op hw)
  rw [State.fetchBytes, hop, hopnd]

/-- The bytes at PC determine the fetched instruction. -/
theorem State.fetchInstr_of_decode {s : State} {i : Instr} {rest : List Byte}
    (h : decode s.fetchBytes = .ok (i, rest)) : s.fetchInstr = i := by
  obtain ⟨_, hfetch⟩ := decode_fetchBytes s
  cases hfetch.symm.trans h
  rfl

/-- The decoder's answer on the bytes of a table word. -/
theorem decode_of_decodeTableWord {nbits w : Nat} {i : Instr} (h : decodeTableWord nbits w = some i) :
    ∃ rest, decode (tableBytes nbits w) = .ok (i, rest) := by
  unfold decodeTableWord at h
  split at h
  case h_1 j rest hdec =>
    cases h
    exact ⟨rest, hdec⟩
  case h_2 => cases h

/-- Settles O49: the fetch reads back the two bytes placed, so it decodes them as the table word is decoded. -/
theorem placedInstructionRunsNext : Obligations.PlacedInstructionRunsNext := by
  intro s nbits w i hw hi
  obtain ⟨rest, hdec⟩ := decode_of_decodeTableWord hi
  refine ⟨rfl, rfl, fun addr hpc hpc1 => ?_, ?_⟩
  · exact (State.memRead_memWrite_other _ _ hpc1).trans (State.memRead_memWrite_other s _ hpc)
  · have hfetch : (s.withFetchWord nbits w).fetchInstr = i :=
      State.fetchInstr_of_decode (rest := rest) ((congrArg decode (State.fetchBytes_placeAtPc _ _ hw)).trans hdec)
    rw [step_of_running rfl, hfetch]
    rfl

end Sys2Proof.Machine
end

section
/-! SUPPORT. HALT, NOOP, the unassigned opcodes, CLC and SEC in whole next states (spec/41_control_flag.md R110 to R114). -/

namespace Sys2Proof.Machine

/-- The step of a 1-byte instruction: its effect with IR written (spec/40_engine.md R90, R92). -/
theorem step_of_opcodeAtPc {s : State} {op : Byte} (h : s.opcodeAtPc op) (hl : opcodeLength op = 1) :
    step s = .next ((effectOf (instrOf op 0x00#8)).run (s.setIr op)) := by
  obtain ⟨hhalt, hop⟩ := h
  rw [step_of_running hhalt, State.fetchInstr_one hop hl, State.latchOpcode_eq, State.fetchOpcode, hop, exec_eq_run]

/-- Settles O8: the step at a HALT byte, after which the core is halted, and `exec_halt_iff` for every instruction. -/
theorem haltResult : Obligations.HaltResult := by
  refine ⟨rfl, exec_eq_run .halt, fun s h => ⟨?step, step_of_halted rfl⟩, fun i s t h hs => ?keeps⟩
  case step =>
    obtain ⟨hhalt, hop⟩ := h
    exact step_next_iff.mpr (State.afterStep_of_haltByte hhalt hop)
  case keeps => exact (exec_halt_iff h).mpr (.inl hs)

/-- A byte outside the opcode table is one the decoder calls unassigned (spec/30_encoding.md R79, R112). -/
theorem isAssigned_eq_false_iff {op : Byte} : isAssigned op = false ↔ op ∉ assignedOpcodes := by
  rw [isAssigned, ← List.contains_iff_mem, Bool.not_eq_true]

/-- A byte outside the table decodes to its unassigned instruction, one byte long (R79, R74). -/
theorem decode_unassigned {op : Byte} (rest : List Byte) (h : isAssigned op = false) :
    decode (op :: rest) = .ok (.unassigned op, rest) := by
  rw [decode_of_length_ne_two rest (by simp [opcodeLength_unassigned h]), instrOf_unassigned _ h]

/-- Every opcode byte decodes where a byte follows it (R81). -/
theorem exists_decode_two (op opnd : Byte) (rest : List Byte) : ∃ r, decode (op :: opnd :: rest) = .ok r := by
  by_cases hl : opcodeLength op = 2
  · exact ⟨_, decode_of_length_two opnd rest hl⟩
  · exact ⟨_, decode_of_length_ne_two _ hl⟩

/-- All a step does at a byte that stands for a no-op, in terms of that byte (R111, R112). -/
theorem step_of_noOpByte {s : State} {op : Byte} (h : s.opcodeAtPc op) (hb : isNoOpByte op = true) :
    step s = .next { s with ir := op, pc := s.pc + 1#16 } := by
  obtain ⟨hhalt, rfl⟩ := h
  exact step_next_iff.mpr (State.afterStep_of_noOpByte hhalt hb)

/-- Settles O9: NOOP and the unassigned opcodes have one effect, which only advances PC. -/
theorem noOpResults : Obligations.NoOpResults := by
  refine ⟨rfl, exec_eq_run .noop, fun op => exec_eq_run (.unassigned op), fun s h => step_of_noOpByte h rfl,
    fun op rest hop => ?decodes, fun op s hop h => ?steps, exists_decode_two⟩
  case decodes => exact ⟨_, decode_unassigned rest (isAssigned_eq_false_iff.mpr hop), fun s => rfl⟩
  case steps => exact step_of_noOpByte h (by simp [isNoOpByte, isAssigned_eq_false_iff.mpr hop])

/-- CLC is the only instruction that clears Carry (R113). -/
theorem eq_clc_of_exec_clears_carry {i : Instr} {s t : State} (h : exec i s = .next t) (hs : s.carry = true)
    (ht : t.carry = false) : i = .clc := by
  by_contra hi
  have hkept : t.carry = true := by rw [exec_carry h, if_neg hi, hs, ite_self]
  simp [ht] at hkept

/-- Settles O10: both have the effect that puts a value into Carry, and no other effect clears it. -/
theorem carryInstructionResults : Obligations.CarryInstructionResults :=
  ⟨rfl, rfl, exec_eq_run .clc, exec_eq_run .sec, fun _ h => step_of_opcodeAtPc h rfl,
    fun _ h => step_of_opcodeAtPc h rfl, fun _ _ _ => eq_clc_of_exec_clears_carry⟩

end Sys2Proof.Machine
end

section
/-! SUPPORT. LDA, LDX and LDY in whole next states (spec/42_loads.md R130 to R133). -/

namespace Sys2Proof.Machine

/-- Settles O11: each has the effect that puts the immediate byte into its register and its test for 0 into Zero, and the
step of a 2-byte opcode runs that effect with IR written. -/
theorem loadResults : Obligations.LoadResults :=
  ⟨fun _ => rfl, fun _ => rfl, fun _ => rfl,
    fun s v => exec_eq_run (.lda v) s, fun s v => exec_eq_run (.ldx v) s, fun s v => exec_eq_run (.ldy v) s,
    fun _ _ h => step_of_bytesAtPc h rfl, fun _ _ h => step_of_bytesAtPc h rfl, fun _ _ h => step_of_bytesAtPc h rfl⟩

end Sys2Proof.Machine
end

section
/-! SUPPORT. The eight transfers in whole next states (spec/43_transfers.md R140 to R148). -/

namespace Sys2Proof.Machine

/-- All a step does at an opcode byte that selects a transfer: the copy, the advance of PC and the byte in IR, no flag
(R148). -/
theorem step_transfer {s : State} {op : Byte} {src dst : Reg} (h : s.opcodeAtPc op) (hl : opcodeLength op = 1)
    (he : effectOf (instrOf op 0x00#8) = .transfer src dst) :
    step s = .next (((s.setIr op).setReg dst (s.reg src)).setPc (s.pc + 1#16)) := by
  rw [step_of_opcodeAtPc h hl, he, Effect.run, State.setIr_reg, State.setIr_pc]

/-- Settles O12: each has the effect that copies its source into its destination, and the step at its byte runs that effect
with IR written. -/
theorem transferResults : Obligations.TransferResults := by
  refine ⟨rfl, rfl, rfl, rfl, rfl, rfl, rfl, rfl, exec_eq_run .tax, exec_eq_run .tay, exec_eq_run .tya, exec_eq_run .txa,
    exec_eq_run .txs, exec_eq_run .tys, exec_eq_run .tsx, exec_eq_run .tsy, ?tax, ?tay, ?tya, ?txa, ?txs, ?tys, ?tsx, ?tsy⟩
  case tax => exact fun s h => step_transfer (src := .a) (dst := .x) h rfl rfl
  case tay => exact fun s h => step_transfer (src := .a) (dst := .y) h rfl rfl
  case tya => exact fun s h => step_transfer (src := .y) (dst := .a) h rfl rfl
  case txa => exact fun s h => step_transfer (src := .x) (dst := .a) h rfl rfl
  case txs => exact fun s h => step_transfer (src := .x) (dst := .sp) h rfl rfl
  case tys => exact fun s h => step_transfer (src := .y) (dst := .sp) h rfl rfl
  case tsx => exact fun s h => step_transfer (src := .sp) (dst := .x) h rfl rfl
  case tsy => exact fun s h => step_transfer (src := .sp) (dst := .y) h rfl rfl

end Sys2Proof.Machine
end

section
/-! SUPPORT. INY, INX, DEY and DEX in whole next states, and the same as numbers (spec/44_incdec.md R160 to R164). -/

namespace Sys2Proof.Machine

@[simp] theorem State.setReg_reg_self (s : State) (r : Reg) : s.setReg r (s.reg r) = s := by cases r <;> rfl

@[simp] theorem State.setCarry_carry_self (s : State) : s.setCarry s.carry = s := rfl

/-- The two arms of an increment: the wrap, which sets Carry, and the rest, which keep it (R160, R161). -/
theorem Effect.run_increment (r : Reg) (s : State) : (Effect.increment r).run s =
    if s.reg r = 0xFF#8 then ((s.setReg r 0x00#8).setCarry true).setPc (s.pc + 1#16)
    else (s.setReg r (s.reg r + 1#8)).setPc (s.pc + 1#16) := by
  rw [Effect.run]
  split
  case isTrue h => simp [h]
  case isFalse h =>
    have hcarry : (s.carry || s.reg r == 0xFF#8) = (s.setReg r (s.reg r + 1#8)).carry := by simp [h]
    rw [hcarry, State.setCarry_carry_self]

/-- The two arms of a decrement: one less, and nothing but PC at 0x00, where it saturates (R162, R163). -/
theorem Effect.run_decrement (r : Reg) (s : State) : (Effect.decrement r).run s =
    if s.reg r ≠ 0x00#8 then (s.setReg r (s.reg r - 1#8)).setPc (s.pc + 1#16) else s.setPc (s.pc + 1#16) := by
  rw [Effect.run, decSaturating, ite_not]
  split
  case isTrue h => rw [← h, State.setReg_reg_self]
  case isFalse => rfl

/-- All a step does at an opcode byte that selects an increment. -/
theorem step_increment {s : State} {op : Byte} {r : Reg} (h : s.opcodeAtPc op) (hl : opcodeLength op = 1)
    (he : effectOf (instrOf op 0x00#8) = .increment r) : step s =
      .next (if s.reg r = 0xFF#8 then (((s.setIr op).setReg r 0x00#8).setCarry true).setPc (s.pc + 1#16)
        else ((s.setIr op).setReg r (s.reg r + 1#8)).setPc (s.pc + 1#16)) := by
  rw [step_of_opcodeAtPc h hl, he, Effect.run_increment, State.setIr_reg, State.setIr_pc]

/-- All a step does at an opcode byte that selects a decrement. -/
theorem step_decrement {s : State} {op : Byte} {r : Reg} (h : s.opcodeAtPc op) (hl : opcodeLength op = 1)
    (he : effectOf (instrOf op 0x00#8) = .decrement r) : step s =
      .next (if s.reg r ≠ 0x00#8 then ((s.setIr op).setReg r (s.reg r - 1#8)).setPc (s.pc + 1#16)
        else (s.setIr op).setPc (s.pc + 1#16)) := by
  rw [step_of_opcodeAtPc h hl, he, Effect.run_decrement, State.setIr_reg, State.setIr_pc]

/-- Settles O13, by the two arms of an increment, for each register at `exec` and at the step. -/
theorem incrementResults : Obligations.IncrementResults := by
  refine ⟨rfl, rfl, fun s => ?iny, fun s => ?inx, fun s h => ?stepIny, fun s h => ?stepInx⟩
  case iny => exact (exec_eq_run .iny s).trans (congrArg Host.Outcome.next (Effect.run_increment .y s))
  case inx => exact (exec_eq_run .inx s).trans (congrArg Host.Outcome.next (Effect.run_increment .x s))
  case stepIny => exact step_increment (r := .y) h rfl rfl
  case stepInx => exact step_increment (r := .x) h rfl rfl

/-- Settles O14, by the two arms of a decrement, for each register at `exec` and at the step. -/
theorem decrementResults : Obligations.DecrementResults := by
  refine ⟨rfl, rfl, fun s => ?dey, fun s => ?dex, fun s h => ?stepDey, fun s h => ?stepDex⟩
  case dey => exact (exec_eq_run .dey s).trans (congrArg Host.Outcome.next (Effect.run_decrement .y s))
  case dex => exact (exec_eq_run .dex s).trans (congrArg Host.Outcome.next (Effect.run_decrement .x s))
  case stepDey => exact step_decrement (r := .y) h rfl rfl
  case stepDex => exact step_decrement (r := .x) h rfl rfl

/-- An increment on numbers: modulo 256, with the wrap kept in Carry (R164). -/
theorem increment_toNat (r : Reg) (s : State) : ∃ t, increment r s = .next t
    ∧ (t.reg r).toNat = ((s.reg r).toNat + 1) % 256
    ∧ (t.carry = true ↔ s.carry = true ∨ (s.reg r).toNat + 1 = 256) ∧ t.zero = s.zero := by
  have hwrap : s.reg r = 0xFF#8 ↔ (s.reg r).toNat + 1 = 256 := by bv_omega
  exact ⟨_, increment_next r s, by simp, by simp [hwrap], by simp⟩

/-- A decrement on numbers: one less, but never below 0 (R164). -/
theorem decrement_toNat (r : Reg) (s : State) : ∃ t, decrement r s = .next t
    ∧ ((t.reg r).toNat : Int) = max (((s.reg r).toNat : Int) - 1) 0 ∧ t.carry = s.carry ∧ t.zero = s.zero := by
  refine ⟨_, decrement_next r s, ?value, by simp, by simp⟩
  case value =>
    rw [State.setPc_reg, State.reg_setReg_same, decSaturating_toNat]
    omega

/-- Settles O17: INX and INY are `increment`, DEX and DEY `decrement`, of X and of Y. -/
theorem arithmeticAsNumbers : Obligations.ArithmeticAsNumbers :=
  fun s => ⟨increment_toNat .x s, increment_toNat .y s, decrement_toNat .x s, decrement_toNat .y s⟩

end Sys2Proof.Machine
end

section
/-! SUPPORT. BEQ, BNE, BCS and BCC in whole next states, and the reach of a taken branch as a number
(spec/45_branches.md R180 to R185). -/

namespace Sys2Proof.Machine

/-- The two places a branch can go (R180), in the terms of sign extension. -/
theorem branchPc_eq (taken : Bool) (pc0 : Addr) (d : Byte) :
    branchPc taken pc0 d = if taken = true then pc0 + 2#16 + d.signExtend 16 else pc0 + 2#16 := by
  rw [branchPc, branchTarget, sext16_eq_signExtend]

/-- The two arms of a branch on Zero (R181, R182). -/
theorem Effect.run_branchOnZero (want : Bool) (d : Byte) (s : State) : (Effect.branchOnZero want d).run s =
    s.setPc (if s.zero = want then s.pc + 2#16 + d.signExtend 16 else s.pc + 2#16) := by
  simp only [Effect.run, branchPc_eq, beq_iff_eq]

/-- The two arms of a branch on Carry (R183, R184). -/
theorem Effect.run_branchOnCarry (want : Bool) (d : Byte) (s : State) : (Effect.branchOnCarry want d).run s =
    s.setPc (if s.carry = want then s.pc + 2#16 + d.signExtend 16 else s.pc + 2#16) := by
  simp only [Effect.run, branchPc_eq, beq_iff_eq]

/-- All a step does at two bytes that select a branch on Zero. -/
theorem step_branchOnZero {s : State} {op d : Byte} {want : Bool} (h : s.bytesAtPc op d) (hl : opcodeLength op = 2)
    (he : effectOf (instrOf op d) = .branchOnZero want d) : step s =
      .next ((s.setIr op).setPc (if s.zero = want then s.pc + 2#16 + d.signExtend 16 else s.pc + 2#16)) := by
  rw [step_of_bytesAtPc h hl, he, Effect.run_branchOnZero, State.setIr_zero, State.setIr_pc]

/-- All a step does at two bytes that select a branch on Carry. -/
theorem step_branchOnCarry {s : State} {op d : Byte} {want : Bool} (h : s.bytesAtPc op d) (hl : opcodeLength op = 2)
    (he : effectOf (instrOf op d) = .branchOnCarry want d) : step s =
      .next ((s.setIr op).setPc (if s.carry = want then s.pc + 2#16 + d.signExtend 16 else s.pc + 2#16)) := by
  rw [step_of_bytesAtPc h hl, he, Effect.run_branchOnCarry, State.setIr_carry, State.setIr_pc]

/-- Settles O15, by the two arms of a branch on Zero and of a branch on Carry, at `exec` and at the step. -/
theorem branchResults : Obligations.BranchResults := by
  refine ⟨fun _ => rfl, fun _ => rfl, fun _ => rfl, fun _ => rfl, fun s d => ?beq, fun s d => ?bne, fun s d => ?bcs,
    fun s d => ?bcc, fun s d h => ?stepBeq, fun s d h => ?stepBne, fun s d h => ?stepBcs, fun s d h => ?stepBcc⟩
  case beq => exact (exec_eq_run (.beq d) s).trans (congrArg Host.Outcome.next (Effect.run_branchOnZero true d s))
  case bne => exact (exec_eq_run (.bne d) s).trans (congrArg Host.Outcome.next (Effect.run_branchOnZero false d s))
  case bcs => exact (exec_eq_run (.bcs d) s).trans (congrArg Host.Outcome.next (Effect.run_branchOnCarry true d s))
  case bcc => exact (exec_eq_run (.bcc d) s).trans (congrArg Host.Outcome.next (Effect.run_branchOnCarry false d s))
  case stepBeq => exact step_branchOnZero h rfl rfl
  case stepBne => exact step_branchOnZero h rfl rfl
  case stepBcs => exact step_branchOnCarry h rfl rfl
  case stepBcc => exact step_branchOnCarry h rfl rfl

/-! ### The reach of a taken branch -/

/-- Each branch instruction is `branchIf` on its own condition (R181 to R184). -/
theorem exec_eq_branchIf {s : State} {d : Byte} {i : Instr} {taken : Bool}
    (hi : (i, taken) ∈ [(Instr.beq d, s.zero), (.bne d, !s.zero), (.bcs d, s.carry), (.bcc d, !s.carry)]) :
    exec i s = branchIf taken d s := by
  simp only [List.mem_cons, List.not_mem_nil, or_false, Prod.mk.injEq] at hi
  obtain ⟨rfl, rfl⟩ | ⟨rfl, rfl⟩ | ⟨rfl, rfl⟩ | ⟨rfl, rfl⟩ := hi <;> rfl

/-- The formula of spec/00_scope.md R9 for a displacement is its two's-complement reading. -/
theorem toNat_sub_bit7_eq_toInt (d : Byte) :
    (d.toNat : Int) - (if d.getLsbD 7 = true then 256 else 0) = d.toInt := by
  rw [BitVec.toInt_eq_msb_cond, BitVec.msb_eq_getLsbD_last]
  split
  · rfl
  · exact Int.sub_zero _

/-- The two places a branch can go, as an integer sum modulo 2^16 (R180). -/
theorem branchPc_eq_ofInt (taken : Bool) (pc0 : Addr) (d : Byte) :
    branchPc taken pc0 d = BitVec.ofInt 16 ((pc0.toNat : Int) + 2 + (if taken = true then d.toInt else 0)) := by
  have hofInt (n : Int) : BitVec.ofInt 16 (pc0.toNat + n) = pc0 + BitVec.ofInt 16 n := by
    rw [BitVec.ofInt_add, BitVec.ofInt_natCast, BitVec.ofNat_toNat, BitVec.setWidth_eq]
  rw [Int.add_assoc, hofInt]
  cases taken
  case false => rfl
  case true => exact branchTarget_eq_add_ofInt pc0 d

/-- A taken BEQ writes PC with the target (R181). -/
theorem exec_beq_taken {s : State} (d : Byte) (h : s.zero = true) :
    exec (.beq d) s = .next (s.setPc (branchTarget s.pc d)) := by
  rw [exec_eq_run, effectOf, Effect.run, branchPc, h]
  rfl

/-- Settles O16: every branch goes to `branchPc`, an integer sum with the displacement's two's-complement value, and
that value runs from -128, at 0x80, to 127, at 0x7F. -/
theorem takenBranchSignedReach : Obligations.TakenBranchSignedReach := by
  refine ⟨fun s t d i taken hi h => ?sum, fun s hz => ⟨?lowest, ?highest⟩⟩
  case sum =>
    have hlow : -128 ≤ d.toInt := BitVec.le_toInt d
    have hhigh : d.toInt < 128 := BitVec.toInt_lt
    obtain rfl : s.setPc (branchPc taken s.pc d) = t := Host.Outcome.next.inj ((exec_eq_branchIf hi).symm.trans h)
    rw [toNat_sub_bit7_eq_toInt]
    exact ⟨branchPc_eq_ofInt taken s.pc d, by omega, by omega⟩
  case lowest =>
    have htarget : branchTarget s.pc 0x80#8 = s.pc - 126#16 := by
      rw [branchTarget_eq_add_ofInt, BitVec.sub_eq_add_neg]
      rfl
    rw [exec_beq_taken _ hz, htarget]
    rfl
  case highest =>
    rw [exec_beq_taken _ hz, branchTarget_eq_add_ofInt]
    rfl

end Sys2Proof.Machine
end

section
/-! SUPPORT. The moves of a session (spec/60_exceptions.md R213, spec/70_reset_and_hazards.md R234): for each host operation
when it has a move, where the move leads and what it answers, said once for `Session.apply`. -/

namespace Sys2Proof.Machine

/-- The operation `op` moves the session `z` to `z'` and answers `r`. -/
def Session.Moves (z : Session) (op : HostOp) (z' : Session) (r : Reply) : Prop :=
  match op with
  | .reset => z' = { stage := z.stage.afterReset, state := z.state.hostReset } ∧ r = .done
  | .fillMemory b => isNoOpByte b = true ∧ r = .done
      ∧ ∃ g, z.stage.afterFill = some g ∧ z' = { stage := g, state := z.state.fillMemory b }
  | .loadProgram image => z.stage.loadRefusal = none
      ∧ ((z.state.loadProgram image = .programTooLarge ∧ z' = z ∧ r = .programTooLarge)
        ∨ ∃ t, z.state.loadProgram image = .loaded t ∧ z' = { stage := .loaded, state := t } ∧ r = .done)
  | .step => (z.stage = .loaded ∨ z.stage = .running)
      ∧ z' = { stage := .running, state := z.state.afterStep } ∧ r = .halted z.state.afterStep.halt
  | .traceRead => z.stage = .running ∧ z' = z ∧ r = .trace z.state.trace

/-- A session may step once an image is loaded (R234). -/
theorem Stage.maySteps_iff (g : Stage) : g.maySteps = true ↔ g = .loaded ∨ g = .running := by
  simp [Stage.maySteps]

/-- What a driver's step answers where it may step: the core's step always leads to a state (spec/60_exceptions.md
R200). -/
theorem Session.apply_step_of_maySteps {z : Session} (h : z.stage = .loaded ∨ z.stage = .running) :
    z.apply .step = .moved { stage := .running, state := z.state.afterStep } (.halted z.state.afterStep.halt) := by
  rw [Session.apply, Session.step, if_pos (z.stage.maySteps_iff.mpr h), step_eq_afterStep]

/-- A step before the boot order is done has no move (R234). -/
theorem Session.apply_step_of_not_maySteps {z : Session} (h : ¬ (z.stage = .loaded ∨ z.stage = .running)) :
    z.apply .step = .refused .stepBeforeBoot :=
  if_neg (mt z.stage.maySteps_iff.mp h)

/-- A fill with a no-op byte, in a stage that may fill (R213). -/
theorem Session.apply_fill_of_some {z : Session} {b : Byte} {g : Stage} (hb : isNoOpByte b = true)
    (hg : z.stage.afterFill = some g) :
    z.apply (.fillMemory b) = .moved { stage := g, state := z.state.fillMemory b } .done := by
  rw [Session.apply, Session.fill, if_pos hb, hg]

/-- A fill with a no-op byte, in a stage that may not fill (R213). -/
theorem Session.apply_fill_of_none {z : Session} {b : Byte} (hb : isNoOpByte b = true)
    (hg : z.stage.afterFill = none) : z.apply (.fillMemory b) = .refused .fillAfterLoad := by
  rw [Session.apply, Session.fill, if_pos hb, hg]

/-- A fill with an assigned byte other than 0xFF has no move in any stage (spec/10_state.md R35). -/
theorem Session.apply_fill_of_not_noOpByte (z : Session) {b : Byte} (h : isNoOpByte b = false) :
    z.apply (.fillMemory b) = .refused .fillByteNotNoOp :=
  if_neg (by simp [h])

/-- A load the stage refuses has no move (R213, R234). -/
theorem Session.apply_load_of_refusal {z : Session} {why : HostRefusal} (image : List Byte)
    (h : z.stage.loadRefusal = some why) : z.apply (.loadProgram image) = .refused why := by
  rw [Session.apply, Session.load, h]

/-- Every move of a session is one of `Session.Moves`. -/
theorem Session.moves_of_apply {z z' : Session} {op : HostOp} {r : Reply} (h : z.apply op = .moved z' r) :
    z.Moves op z' r := by
  cases op with
  | reset =>
    cases h
    exact ⟨rfl, rfl⟩
  | fillMemory b =>
    cases hb : isNoOpByte b with
    | false =>
      rw [Session.apply_fill_of_not_noOpByte z hb] at h
      cases h
    | true =>
      cases hg : z.stage.afterFill with
      | none =>
        rw [Session.apply_fill_of_none hb hg] at h
        cases h
      | some g =>
        rw [Session.apply_fill_of_some hb hg] at h
        cases h
        exact ⟨hb, rfl, g, hg, rfl⟩
  | loadProgram image =>
    rw [Session.apply, Session.load] at h
    split at h
    case h_1 => cases h
    case h_2 hstage =>
      split at h
      case h_1 t ht =>
        cases h
        exact ⟨hstage, .inr ⟨t, ht, rfl, rfl⟩⟩
      case h_2 ht =>
        cases h
        exact ⟨hstage, .inl ⟨ht, rfl, rfl⟩⟩
  | step =>
    by_cases hstage : z.stage = .loaded ∨ z.stage = .running
    · rw [Session.apply_step_of_maySteps hstage] at h
      cases h
      exact ⟨hstage, rfl, rfl⟩
    · rw [Session.apply_step_of_not_maySteps hstage] at h
      cases h
  | traceRead =>
    rw [Session.apply, Session.traceRead] at h
    split at h
    case isTrue hstage =>
      cases h
      exact ⟨hstage, rfl, rfl⟩
    case isFalse => cases h

/-- A move that is neither a reset nor a step writes memory alone (spec/10_state.md R35, R36, R42). -/
theorem Session.Moves.writes_mem_only {z z' : Session} {op : HostOp} {r : Reply} (h : z.Moves op z' r)
    (hreset : op ≠ .reset) (hstep : op ≠ .step) : z'.state = { z.state with mem := z'.state.mem } := by
  cases op with
  | reset => exact absurd rfl hreset
  | fillMemory b =>
    obtain ⟨_, _, g, _, rfl⟩ := h
    rfl
  | loadProgram image =>
    obtain ⟨_, ⟨_, rfl, _⟩ | ⟨t, ht, rfl, _⟩⟩ := h
    · rfl
    · exact State.eq_of_loadProgram ht
  | step => exact absurd rfl hstep
  | traceRead =>
    obtain ⟨_, rfl, _⟩ := h
    rfl

/-- While a program runs no move writes an array: the fill and the load have none, and a reset and a step write registers
and flags (R213, R231, spec/20_memory.md R50, spec/10_state.md R33). -/
theorem Session.Moves.keeps_arrays_of_running {z z' : Session} {op : HostOp} {r : Reply} (h : z.Moves op z' r)
    (hrun : z.stage = .running) : z'.state.mem = z.state.mem ∧ z'.state.stack = z.state.stack := by
  cases op with
  | reset =>
    obtain ⟨rfl, _⟩ := h
    exact ⟨State.hostReset_mem _, State.hostReset_stack _⟩
  | fillMemory b =>
    obtain ⟨_, _, g, hfill, _⟩ := h
    rw [hrun] at hfill
    cases hfill
  | loadProgram image =>
    obtain ⟨hload, _⟩ := h
    rw [hrun] at hload
    cases hload
  | step =>
    obtain ⟨_, rfl, _⟩ := h
    exact step_keeps_arrays (step_eq_afterStep z.state)
  | traceRead =>
    obtain ⟨_, rfl, _⟩ := h
    exact ⟨rfl, rfl⟩

/-- A reset leaves the launch registers and flags (spec/70_reset_and_hazards.md R230). -/
theorem State.hostReset_atLaunch (s : State) : s.hostReset.atLaunch :=
  ⟨rfl, rfl, rfl, rfl, rfl, rfl, rfl, rfl⟩

/-- Settles O45: the core's step always answers, and the stage alone decides whether the driver may take it. -/
theorem driverStepGivesHalted : Obligations.DriverStepGivesHalted :=
  fun z => ⟨fun h => ⟨_, step_eq_afterStep z.state, Session.apply_step_of_maySteps h⟩,
    fun hl hr => Session.apply_step_of_not_maySteps (not_or_intro hl hr)⟩

/-- Settles O46: the refusals by stage and fill byte, then what the moves that remain can write. -/
theorem driverBreachesHaveNoMove : Obligations.DriverBreachesHaveNoMove := by
  refine ⟨fun z b hb hstage => ?fillAfterLoad, fun z b hb => z.apply_fill_of_not_noOpByte hb,
    fun z image hstage => ?loadDuringRun, fun z image hstage => ?loadBeforeInit,
    fun z z' op r hreset hstep h => (Session.moves_of_apply h).writes_mem_only hreset hstep,
    fun z hstage => ⟨z.state.hostReset, ?resetInRun, z.state.hostReset_atLaunch⟩,
    fun z z' op r hstage h => (Session.moves_of_apply h).keeps_arrays_of_running hstage⟩
  case fillAfterLoad =>
    refine Session.apply_fill_of_none hb ?_
    obtain h | h := hstage <;> rw [h, Stage.afterFill]
  case loadDuringRun =>
    refine Session.apply_load_of_refusal image ?_
    rw [hstage, Stage.loadRefusal]
  case loadBeforeInit =>
    refine Session.apply_load_of_refusal image ?_
    obtain h | h | h := hstage <;> rw [h, Stage.loadRefusal]
  case resetInRun => rw [Session.apply, Session.reset, hstage, Stage.afterReset]

end Sys2Proof.Machine
end

section
/-! SUPPORT. The boot order (spec/70_reset_and_hazards.md R230, R234, R235): what reset and boot leave, and the moves of a
session that bring an image to the loaded stage. -/

namespace Sys2Proof.Machine

/-- The state a run starts from holds the launch registers and flags: a reset writes nothing new to it (R235). -/
theorem State.reset_atLaunch : State.reset.atLaunch := State.reset.hostReset_atLaunch

/-- Every byte of memory is the fill byte in the state a run starts from (R235). -/
theorem State.reset_memRead (addr : Addr) : State.reset.memRead addr = 0xFF#8 := rfl

/-- Fill and reset, in this order, lead from creation to the state a run starts from too (R234). -/
theorem State.created_fill_reset : (State.created.fillMemory Config.fillByte).hostReset = State.reset :=
  (State.created.fillMemory_hostReset _).trans State.created_reset_fill

/-- A boot is a load into the state a run starts from. -/
theorem boot_eq_loadProgram (image : List Byte) : boot image = State.reset.loadProgram image :=
  congrArg (State.loadProgram image) State.created_reset_fill

/-- Settles O36: both arrays are empty lists, and Halt is a launch flag. -/
theorem resetMeetsInvariant : Obligations.ResetMeetsInvariant := by
  obtain ⟨hmem, hstack⟩ := State.reset_arrays_wf
  exact ⟨⟨hmem, hstack, nofun⟩, rfl⟩

/-- Settles O37: the boot order leaves `State.reset` before the load, and an empty image writes nothing. -/
theorem resetStateIsLaunchState : Obligations.ResetStateIsLaunchState :=
  ⟨State.reset_atLaunch, rfl, fun _ => rfl, State.reset_memRead, boot_eq_loadProgram []⟩

/-- Settles O38: the load writes the image into memory, which reads 0xFF elsewhere, and nothing else. -/
theorem bootLeavesLaunchState : Obligations.BootLeavesLaunchState := by
  intro image hl
  obtain ⟨hmem, _⟩ := State.reset_arrays_wf
  refine ⟨_, (boot_eq_loadProgram image).trans (State.reset.loadProgram_of_fits hl), State.reset_atLaunch, rfl,
    fun _ => rfl, fun addr => ?_⟩
  exact Cells.read_writeAll_image addr.toNat hmem hl

/-- Settles O39: a reset writes the launch registers and flags, and the other fields keep their values. -/
theorem hostResetResult : Obligations.HostResetResult :=
  fun s => ⟨s.hostReset_atLaunch, s.hostReset_ir, s.hostReset_stack, s.hostReset_mem⟩

/-! ### The boot order as moves of a session -/

/-- A reset is a move in every stage (R230). -/
theorem Session.apply_reset (z : Session) :
    z.apply .reset = .moved { stage := z.stage.afterReset, state := z.state.hostReset } .done := rfl

/-- A load the stage allows, of an image that fits (R234, spec/10_state.md R36). -/
theorem Session.apply_load_of_loaded {z : Session} {t : State} {image : List Byte} (hg : z.stage.loadRefusal = none)
    (ht : z.state.loadProgram image = .loaded t) :
    z.apply (.loadProgram image) = .moved { stage := .loaded, state := t } .done := by
  rw [Session.apply, Session.load, hg, ht]

/-- Settles O48: reset and fill, in either order, lead to the stage ready with `State.reset`, where the image is loaded. -/
theorem bootMovesReachLoadedSession : Obligations.BootMovesReachLoadedSession := by
  intro image hl
  have hload := State.reset.loadProgram_of_fits hl
  have hready : Session.apply (.loadProgram image) { stage := .ready, state := State.reset } = .moved _ .done :=
    Session.apply_load_of_loaded rfl hload
  refine ⟨_, rfl, (boot_eq_loadProgram image).trans hload, ⟨_, _, Session.start.apply_reset, ?fillAfterReset, hready⟩,
    ⟨_, _, Session.apply_fill_of_some rfl rfl, ?resetAfterFill, hready⟩⟩
  case fillAfterReset =>
    rw [← State.created_reset_fill]
    exact Session.apply_fill_of_some rfl rfl
  case resetAfterFill =>
    rw [← State.created_fill_reset]
    exact Session.apply_reset _

end Sys2Proof.Machine
end

section
/-! SUPPORT. The invariant of every session a driver can bring about (spec/60_exceptions.md R213,
spec/70_reset_and_hazards.md R230, R234, R235). -/

namespace Sys2Proof.Machine

/-- The stages after a reset and before the first step: the registers and flags are those of the launch state. -/
def Stage.isLaunch (g : Stage) : Prop := g = .resetOnly ∨ g = .ready ∨ g = .loaded

/-- What every move keeps. Beyond the step's invariant, a core is halted only in a run: a fill or a load may overwrite the
HALT byte, and neither is a move in that stage. -/
structure Session.Inv (z : Session) : Prop where
  memory : Memory.wf z.state.mem = true
  stack : z.state.stack = []
  halted : z.state.halt = true → z.stage = .running ∧ z.state.atHaltByte = true
  launch : z.stage.isLaunch → z.state.atLaunch

/-- The session's invariant implies the step's. -/
theorem Session.Inv.state_inv {z : Session} (h : z.Inv) : z.state.Inv := by
  refine ⟨h.memory, ?_, fun hhalt => (h.halted hhalt).right⟩
  rw [h.stack]
  rfl

/-- Memory is filled outside a run only, and a fill leads to a launch stage only from a launch stage (R213). -/
theorem Stage.afterFill_eq_some {g g' : Stage} (h : g.afterFill = some g') :
    g ≠ .running ∧ (g'.isLaunch → g.isLaunch) := by
  cases g <;> cases h <;> simp [Stage.isLaunch]

/-- An image is loaded in a launch stage only (R213, R234). -/
theorem Stage.isLaunch_of_mayLoad {g : Stage} (h : g.loadRefusal = none) : g.isLaunch := by
  cases g <;> cases h <;> simp [Stage.isLaunch]

theorem Stage.not_isLaunch_running : ¬ Stage.running.isLaunch := by simp [Stage.isLaunch]

/-- A move that writes memory alone keeps the invariant outside a run, where the core is not halted. -/
theorem Session.Inv.withMem {z : Session} {g : Stage} {m : Cells} (h : z.Inv) (hm : Memory.wf m = true)
    (hrun : z.stage ≠ .running) (hlaunch : g.isLaunch → z.stage.isLaunch) :
    Session.Inv { stage := g, state := { z.state with mem := m } } where
  memory := hm
  stack := h.stack
  halted hhalt := absurd (h.halted hhalt).left hrun
  launch hg := h.launch (hlaunch hg)

/-- A reset makes Halt false and leaves the launch registers and flags, whatever the stage it leads to (R230). -/
theorem Session.Inv.hostReset {z : Session} (h : z.Inv) (g : Stage) :
    Session.Inv { stage := g, state := z.state.hostReset } where
  memory := h.memory
  stack := h.stack
  halted := nofun
  launch _ := z.state.hostReset_atLaunch

/-- A step keeps the invariant, which in a run is that of the step. -/
theorem Session.Inv.afterStep {z : Session} (h : z.Inv) :
    Session.Inv { stage := .running, state := z.state.afterStep } := by
  have hstep := step_eq_afterStep z.state
  obtain ⟨hmem, _, hhalted⟩ := stepKeepsInvariant _ _ h.state_inv hstep
  obtain ⟨_, hstack⟩ := step_keeps_arrays hstep
  exact ⟨hmem, hstack.trans h.stack, fun hhalt => ⟨rfl, hhalted hhalt⟩, fun hg => absurd hg Stage.not_isLaunch_running⟩

/-- Every move keeps the invariant (R213). -/
theorem Session.Moves.keeps_inv {z z' : Session} {op : HostOp} {r : Reply} (m : z.Moves op z' r) (h : z.Inv) : z'.Inv := by
  cases op with
  | reset =>
    obtain ⟨rfl, _⟩ := m
    exact h.hostReset _
  | fillMemory b =>
    obtain ⟨_, _, g, hg, rfl⟩ := m
    obtain ⟨hrun, hlaunch⟩ := Stage.afterFill_eq_some hg
    exact h.withMem (z.state.fillMemory_wf b) hrun hlaunch
  | loadProgram image =>
    obtain ⟨hg, ⟨_, rfl, _⟩ | ⟨t, ht, rfl, _⟩⟩ := m
    · exact h
    · have hlaunch := Stage.isLaunch_of_mayLoad hg
      rw [State.eq_of_loadProgram ht]
      exact h.withMem (State.loadProgram_keeps_wf ht h.memory)
        (fun hrun => Stage.not_isLaunch_running (hrun ▸ hlaunch)) (fun _ => hlaunch)
  | step =>
    obtain ⟨_, rfl, _⟩ := m
    exact h.afterStep
  | traceRead =>
    obtain ⟨_, rfl, _⟩ := m
    exact h

/-- A session right after creation meets the invariant (spec/10_state.md R38). -/
theorem Session.start_inv : Session.start.Inv := by
  obtain ⟨hmem, _⟩ := State.created_arrays_wf
  exact ⟨hmem, State.created_stack, nofun, by simp [Session.start, Stage.isLaunch]⟩

/-- Every session a driver can bring about meets the invariant, by induction on the moves from creation. -/
theorem Reachable.inv {z : Session} (h : Reachable z) : z.Inv := by
  induction h with
  | start => exact Session.start_inv
  | move _ m ih => exact (Session.moves_of_apply m).keeps_inv ih

/-- Settles O47, from the invariant of reachable sessions; a stack that lists nothing reads 0x00 everywhere. -/
theorem reachableSessionsInvariant : Obligations.ReachableSessionsInvariant := by
  intro z hz
  refine ⟨hz.inv.state_inv, fun i => ?_, hz.inv.launch⟩
  rw [State.stackRead, hz.inv.stack]
  rfl

end Sys2Proof.Machine
end

section
/-! SUPPORT. The step as decode and execute (spec/40_engine.md R90, spec/60_exceptions.md R200): words of the opcode map, the
instruction a step runs, and that it always answers. -/

namespace Sys2Proof.Machine

/-- Settles O1: each word is the encoding of its instruction, followed by the bytes that are left. -/
theorem specWordsDecode : Obligations.SpecWordsDecode :=
  ⟨decodeOfEncode .halt [] rfl, decodeOfEncode .noop [] rfl, decodeOfEncode .clc [0x38#8] rfl,
    decodeOfEncode (.ldx 0x07#8) [] rfl, decodeOfEncode .txs [] rfl, decodeOfEncode .dey [] rfl,
    decodeOfEncode (.bcc 0xFD#8) [] rfl, decodeOfEncode (.unassigned 0x4C#8) [0x12#8] rfl⟩

/-- Settles O2: the two bytes are those a fetch decodes, and what the decoder answers is well-formed. -/
theorem stepRunsDecodedInstruction : Obligations.StepRunsDecodedInstruction := by
  intro s i rest hhalt hdec
  obtain ⟨hwf, _⟩ := encodeOfDecode _ _ _ hdec
  have hfetch : s.fetchInstr = i := State.fetchInstr_of_decode hdec
  refine ⟨hwf, ?_⟩
  rw [step_of_running hhalt, hfetch]
  rfl

/-- Settles O5: every instruction has an effect, and every step a state after it. -/
theorem stepAndExecAlwaysAnswer : Obligations.StepAndExecAlwaysAnswer :=
  ⟨fun i s => ⟨_, exec_eq_run i s⟩, fun s => ⟨_, step_eq_afterStep s⟩⟩

end Sys2Proof.Machine
end
